-- ==== Sys2Proof/Word.lean ====
section
/-! DEFINITION. The word types of the block (00_scope.md R10: a byte is 8 bits, all values unsigned). -/

namespace Sys2Proof

/-- 00_scope.md R10: 8 bits, bit 0 least significant. -/
abbrev Byte := BitVec 8

/-- 10_state.md R28: the 32-bit button mask. -/
abbrev Mask := BitVec 32

end Sys2Proof
end

