-- ==== Sys2Proof/Config.lean ====
section
/-! DEFINITION. What an implementation fixes (`Params`, 00_scope.md R8 and R9) and the free values (`Config.ext`,
`Config.floating`, `Config.register`, `Config.key`, `Config.control`, `Config.mode`, `Config.cursor`). The parameters are arguments of the step relation (10_state.md R34);
since the host's `step` takes a state alone, a state carries them in its field `cfg`, which no step changes (log entry 4).
A statement about every state is thereby a statement about every value of the parameters. -/

namespace Sys2Proof

/-- 00_scope.md R7: the three lines of the bus. -/
inductive Line
  | stb
  | clk
  | dio
  deriving DecidableEq, Repr

/-- 10_state.md R36: the far end's addressing mode. -/
inductive AddrMode
  | auto
  | fixed
  deriving DecidableEq, Repr, Inhabited

/-- 10_state.md R36, 20_memory.md R67: the far end's display control, on or off and a level. -/
structure DisplayControl where
  on : Bool
  level : BitVec 3
  deriving DecidableEq, Repr, Inhabited

/-- 00_scope.md R8: the parameter `PADZERO` of the padded renderers. -/
inductive PadZero
  | digit
  | padOnly
  deriving DecidableEq, Repr

/-- 00_scope.md R8 and R9: the parameters. Each line's mask is the single bit `2 ^ <line>Bit` (R8: three distinct
single-bit masks). Every parameter is an argument of the machine: `State.resetWith` takes them. `charLookup` lists the
characters the lookup knows; every other one gives the sentinel zero (R9). -/
structure Params where
  /-- `GPIO_PORT`: the number of the port the three lines belong to; no rule depends on it. -/
  gpioPort : Nat
  stbBit : Nat
  clkBit : Nat
  dioBit : Nat
  /-- `T_SETTLE`, in microseconds (log entry 5). -/
  tSettle : Nat
  brightness : BitVec 3
  cmdDataAuto : Byte
  cmdDataReadKeys : Byte
  cmdDataFixed : Byte
  cmdAddr : Byte
  cmdDisplayOn : Byte
  ledGreen : Byte
  ledRed : Byte
  dotsReset : Byte
  /-- `VALUE_BITS`: the width of the integer the formatter renders (30_encoding.md R81); its rules are over natural numbers of
  any size (92_eei_decisions.md D21; log entry 17). -/
  valueBits : Nat
  padZero : PadZero
  font : Vector Byte 16
  charLookup : List (Byte × Byte)
  pad0 : Byte
  padSpace : Byte
  deriving DecidableEq, Repr

/-- 92_eei_decisions.md D2 and D15, 00_scope.md R8: what is required of any instantiation. The masks are distinct;
the low 4 bits of `CMD_ADDR` and the low 3 bits of `CMD_DISPLAY_ON` are zero; the five command classes share no byte;
the two colour bits are distinct single bits (log entry 21). -/
abbrev Params.legal (c : Params) : Prop :=
  (c.stbBit ≠ c.clkBit ∧ c.stbBit ≠ c.dioBit ∧ c.clkBit ≠ c.dioBit) ∧
  (c.cmdAddr &&& 0x0F = 0 ∧ c.cmdDisplayOn &&& 0x07 = 0) ∧
  (c.cmdDataAuto ≠ c.cmdDataReadKeys ∧ c.cmdDataAuto ≠ c.cmdDataFixed ∧ c.cmdDataReadKeys ≠ c.cmdDataFixed) ∧
  (c.cmdDataAuto &&& 0xF0 ≠ c.cmdAddr ∧ c.cmdDataReadKeys &&& 0xF0 ≠ c.cmdAddr ∧
    c.cmdDataFixed &&& 0xF0 ≠ c.cmdAddr ∧ c.cmdDisplayOn &&& 0xF0 ≠ c.cmdAddr) ∧
  (c.cmdDataAuto &&& 0xF8 ≠ c.cmdDisplayOn ∧ c.cmdDataReadKeys &&& 0xF8 ≠ c.cmdDisplayOn ∧
    c.cmdDataFixed &&& 0xF8 ≠ c.cmdDisplayOn) ∧
  (c.ledGreen ≠ 0 ∧ c.ledGreen &&& (c.ledGreen - 1) = 0 ∧ c.ledRed ≠ 0 ∧ c.ledRed &&& (c.ledRed - 1) = 0 ∧
    c.ledGreen ≠ c.ledRed)

/-- FREE VALUE (10_state.md R23, `ext(L)`; 92_eei_decisions.md D18; log entry 8): what the environment drives on a line
at the n-th sample, `none` where it does not drive it. -/
opaque Config.ext : Line → Nat → Option Bool

/-- FREE VALUE (10_state.md R23, `draw`; 93_implementation_defined.md U6; log entry 8): the level at the n-th sample of
an input line that nobody drives and whose pull-up is off. -/
opaque Config.floating : Line → Nat → Bool

/-- FREE VALUE (10_state.md R39, 20_memory.md R67, `draw`; log entry 6): what a far-end register holds that no frame known to
the model has written. The first argument is the index of the draw, the second the register's address. -/
opaque Config.register : Nat → Nat → Byte

/-- FREE VALUE (20_memory.md R67, `draw`; log entry 6): the key bytes `K0` to `K3` where no read-keys frame has taken them. The
first argument is the index of the draw, the second the byte's number. -/
opaque Config.key : Nat → Nat → Byte

/-- FREE VALUE (10_state.md R39, 93_implementation_defined.md U9, `draw`; log entry 6): the far end's display control where no
display-control frame has set it. The argument is the index of the draw. -/
opaque Config.control : Nat → DisplayControl

/-- FREE VALUE (10_state.md R39, 93_implementation_defined.md U9, `draw`; log entry 23): the far end's addressing mode where it is
unspecified. The argument is the number of events so far. -/
opaque Config.mode : Nat → AddrMode

/-- FREE VALUE (10_state.md R39, 93_implementation_defined.md U9, `draw`; log entry 23): the far end's cursor where it is
unspecified. The argument is the number of events so far. -/
opaque Config.cursor : Nat → BitVec 4

end Sys2Proof
end

