-- ==== Sys2Proof/Machine/Defaults.lean ====
section
/-! DEFINITION. The values of the parameters at reset: the defaults of 00_scope.md R8, and for the OPEN parameters
without a default the customary values of 93_implementation_defined.md G4 or a choice of the model (log entry 5). -/

namespace Sys2Proof.Machine

/-- 93_implementation_defined.md G4: the customary seven-segment font (PRESUMED; log entry 5). -/
def customaryFont : Vector Byte 16 :=
  #v[0x3F, 0x06, 0x5B, 0x4F, 0x66, 0x6D, 0x7D, 0x07, 0x7F, 0x6F, 0x77, 0x7C, 0x39, 0x5E, 0x79, 0x71]

/-- 00_scope.md R8: the values this spec takes. DESIGN CHOICE for the port number, the line bits, `T_SETTLE` = 1,
`VALUE_BITS` = 32 and the empty `CHARLOOKUP`; PRESUMED (entry G4) for the font and the pads: log entry 5. -/
def defaultParams : Params where
  gpioPort := 0
  stbBit := 0
  clkBit := 1
  dioBit := 2
  tSettle := 1
  brightness := 7
  cmdDataAuto := 0x40
  cmdDataReadKeys := 0x42
  cmdDataFixed := 0x44
  cmdAddr := 0xC0
  cmdDisplayOn := 0x88
  ledGreen := 0x01
  ledRed := 0x02
  dotsReset := 0x00
  valueBits := 32
  padZero := .digit
  font := customaryFont
  charLookup := []
  pad0 := 0x3F
  padSpace := 0x00

end Sys2Proof.Machine
end

