-- ==== Sys2Proof/Syntax.lean ====
section
/-! DEFINITION. The operations of spec/opcode_table.json as syntax, one constructor per row. Operand widths follow
30_encoding.md R81: bytes and characters are 8 bits; positions, offsets, addresses, glyph indices, levels, colours,
widths and values are natural numbers, of which WellFormed names the defined domain. -/

namespace Sys2Proof

/-- 43_formatter.md R172: the alignment operand of SETNUMBER. -/
inductive Align
  | right
  | left
  deriving DecidableEq, Repr

/-- The rows of the table: 18 of format HOSTOP, 5 of format PSEUDO and 5 of format WIRECMD.
The WIRECMD constructors stand for the frame (30_encoding.md R85) that their command byte heads on the bus. -/
inductive Instr
  /-- 41_command_protocol.md R138. -/
  | init
  /-- 40_bus_transport.md R112. -/
  | fopen
  /-- 40_bus_transport.md R113. -/
  | fclose
  /-- 40_bus_transport.md R114. -/
  | send (b : Byte)
  /-- 40_bus_transport.md R116. -/
  | recv
  /-- 41_command_protocol.md R131. -/
  | command (c : Byte)
  /-- 41_command_protocol.md R133. -/
  | wrreg (a : Nat) (d : Byte)
  /-- 41_command_protocol.md R134. -/
  | dctl (l : Nat)
  /-- 41_command_protocol.md R136. -/
  | getbuttons
  /-- 42_display_state.md R151. -/
  | digreg (p : Nat)
  /-- 42_display_state.md R152. -/
  | ledreg (p : Nat)
  /-- 42_display_state.md R154. -/
  | setdots (m : Byte)
  /-- 42_display_state.md R155. -/
  | setbyte (p : Nat) (v : Byte)
  /-- 42_display_state.md R156. -/
  | setdigit (p : Nat) (g : Nat)
  /-- 42_display_state.md R157. -/
  | clear
  /-- 42_display_state.md R158. -/
  | clearleds
  /-- 42_display_state.md R159: green mask, red mask. -/
  | setleds (gMask rMask : Byte)
  /-- 42_display_state.md R160: colour 0 OFF, 1 GREEN, 2 RED, 3 BOTH. -/
  | setled (p : Nat) (col : Nat)
  /-- 43_formatter.md R172. -/
  | setnumber (value offset : Nat) (align : Align)
  /-- 43_formatter.md R173. -/
  | setnumberpad (value offset width : Nat) (pad : Byte)
  /-- 43_formatter.md R174. -/
  | setnumberhex (value offset width : Nat) (pad : Byte)
  /-- 43_formatter.md R175. -/
  | setchar (p : Nat) (ch : Byte)
  /-- 43_formatter.md R176. -/
  | setchars (text : List Byte) (offset : Nat)
  /-- 30_encoding.md R86: the frame `[TX(CMD_DATA_AUTO)]`. -/
  | cmdDataAuto
  /-- 30_encoding.md R86: the read frame that `CMD_DATA_READKEYS` heads, four bytes received. -/
  | cmdDataReadKeys
  /-- 30_encoding.md R86: the frame `[TX(CMD_DATA_FIXED)]`. -/
  | cmdDataFixed
  /-- 30_encoding.md R86, R89: the write frame `[TX(CMD_ADDR | a), TX(d)]`. -/
  | cmdAddr (a : BitVec 4) (d : Byte)
  /-- 30_encoding.md R86, R90: the frame `[TX(CMD_DISPLAY_ON | l)]`. -/
  | cmdDisplayOn (l : BitVec 3)
  deriving DecidableEq, Repr

end Sys2Proof
end

