-- ==== Sys2Proof/Decode.lean ====
section
/-! DEFINITION. Decoding, and after it encoding. The block has two encoding spaces (30_encoding.md R80): host requests, a
pair of an operation code and an operand tuple (R81, R82), and command bytes on the wire (R86), where a request is the
transmitted bytes of one frame (R85). How a tuple is packed is not defined, so a model uses the tuple (R81, D1). -/

namespace Sys2Proof

/-- 30_encoding.md R81: one component of the operand tuple of a host request. -/
inductive Operand
  | byte (b : Byte)
  | nat (n : Nat)
  | align (a : Align)
  | text (t : List Byte)
  deriving DecidableEq, Repr

/-- What can be asked for: a host request `(op, operands)` (30_encoding.md R81), or the transmitted bytes of a frame on
the wire (R85, R86; log entry 9). -/
inductive Request
  | host (op : Byte) (args : List Operand)
  | wire (bytes : List Byte)
  deriving DecidableEq, Repr

/-- 30_encoding.md R82: the assigned operations of the host. -/
inductive HostOp
  | init | fopen | fclose | send | recv | command | wrreg | dctl | getbuttons
  | digreg | ledreg
  | setdots | setbyte | setdigit | clear | clearleds | setleds | setled
  | setnumber | setnumberpad | setnumberhex | setchar | setchars
  deriving DecidableEq, Repr

/-- 30_encoding.md R86: the five kinds of command byte. -/
inductive WireOp
  | dataAuto | dataReadKeys | dataFixed | addr | displayOn
  deriving DecidableEq, Repr

/-- Why a request has no meaning (30_encoding.md R94, R81, R85). -/
inductive DecodeError
  | unassignedOp (op : Byte)
  | operandShape (op : Byte)
  | unknownFrame
  deriving DecidableEq, Repr

/-- A row of format WIRECMD of spec/opcode_table.json. -/
structure WireRow where
  code : Byte
  mask : Byte
  op : WireOp
  deriving DecidableEq, Repr

/-- 30_encoding.md R82: the operation codes. -/
def hostTable : List (Byte × HostOp) :=
  [(0x00, .init), (0x01, .fopen), (0x02, .fclose), (0x03, .send), (0x04, .recv), (0x05, .command), (0x06, .wrreg),
   (0x07, .dctl), (0x08, .getbuttons), (0x10, .digreg), (0x11, .ledreg)]
  ++ [(0x20, .setdots), (0x21, .setbyte), (0x22, .setdigit), (0x23, .clear), (0x24, .clearleds), (0x25, .setleds),
   (0x26, .setled), (0x30, .setnumber), (0x31, .setnumberpad), (0x32, .setnumberhex), (0x33, .setchar), (0x34, .setchars)]

/-- 30_encoding.md R86, with the parameters' values: which command a byte on the wire is. -/
def wireTable (c : Params) : List WireRow :=
  [⟨c.cmdDataAuto, 0xFF, .dataAuto⟩, ⟨c.cmdDataReadKeys, 0xFF, .dataReadKeys⟩, ⟨c.cmdDataFixed, 0xFF, .dataFixed⟩,
   ⟨c.cmdAddr, 0xF0, .addr⟩, ⟨c.cmdDisplayOn, 0xF8, .displayOn⟩]

/-- 30_encoding.md R82, R94: the operation of a host code, none where it is unassigned. -/
def hostOpOf (op : Byte) : Option HostOp :=
  (hostTable.find? (fun r => r.1 == op)).map (·.2)

/-- 30_encoding.md R86: the command of a byte on the wire, none where it is no command of the block's. -/
def wireOpOf (c : Params) (b : Byte) : Option WireOp :=
  ((wireTable c).find? (fun r => b &&& r.mask == r.code)).map (·.op)

/-- 30_encoding.md R82: the operation with its operands, none where the tuple is not of the operation's shape. -/
def assemble : HostOp → List Operand → Option Instr
  | .init, [] => some .init
  | .fopen, [] => some .fopen
  | .fclose, [] => some .fclose
  | .send, [.byte b] => some (.send b)
  | .recv, [] => some .recv
  | .command, [.byte c] => some (.command c)
  | .wrreg, [.nat a, .byte d] => some (.wrreg a d)
  | .dctl, [.nat l] => some (.dctl l)
  | .getbuttons, [] => some .getbuttons
  | .digreg, [.nat p] => some (.digreg p)
  | .ledreg, [.nat p] => some (.ledreg p)
  | .setdots, [.byte m] => some (.setdots m)
  | .setbyte, [.nat p, .byte v] => some (.setbyte p v)
  | .setdigit, [.nat p, .nat g] => some (.setdigit p g)
  | .clear, [] => some .clear
  | .clearleds, [] => some .clearleds
  | .setleds, [.byte g, .byte r] => some (.setleds g r)
  | .setled, [.nat p, .nat col] => some (.setled p col)
  | .setnumber, [.nat value, .nat offset, .align al] => some (.setnumber value offset al)
  | .setnumberpad, [.nat value, .nat offset, .nat width, .byte pad] => some (.setnumberpad value offset width pad)
  | .setnumberhex, [.nat value, .nat offset, .nat width, .byte pad] => some (.setnumberhex value offset width pad)
  | .setchar, [.nat p, .byte ch] => some (.setchar p ch)
  | .setchars, [.text t, .nat offset] => some (.setchars t offset)
  | _, _ => none

/-- A host request: its operation code, then its operands (30_encoding.md R81, R82, R94). -/
def decodeHost (op : Byte) (args : List Operand) : Except DecodeError Instr :=
  match hostOpOf op with
  | none => .error (.unassignedOp op)
  | some o =>
    match assemble o args with
    | none => .error (.operandShape op)
    | some i => .ok i

/-- The transmitted bytes of a frame of 30_encoding.md R85: a command byte alone (formats FC and FR), or a set-address
byte and a data byte (format FW). -/
def decodeWire (c : Params) : List Byte → Option Instr
  | [b] =>
    match wireOpOf c b with
    | some .dataAuto => some .cmdDataAuto
    | some .dataReadKeys => some .cmdDataReadKeys
    | some .dataFixed => some .cmdDataFixed
    | some .displayOn => some (.cmdDisplayOn (b.setWidth 3))
    | some .addr => none
    | none => none
  | [b, d] =>
    match wireOpOf c b with
    | some .addr => some (.cmdAddr (b.setWidth 4) d)
    | _ => none
  | _ => none

/-- The decoder, total on every request. -/
def decodeRequest (c : Params) : Request → Except DecodeError Instr
  | .host op args => decodeHost op args
  | .wire bytes =>
    match decodeWire c bytes with
    | some i => .ok i
    | none => .error .unknownFrame

/-! The encoder. -/

/-- 30_encoding.md R82: the code of an operation. -/
def hostCode : HostOp → Byte
  | .init => 0x00
  | .fopen => 0x01
  | .fclose => 0x02
  | .send => 0x03
  | .recv => 0x04
  | .command => 0x05
  | .wrreg => 0x06
  | .dctl => 0x07
  | .getbuttons => 0x08
  | .digreg => 0x10
  | .ledreg => 0x11
  | .setdots => 0x20
  | .setbyte => 0x21
  | .setdigit => 0x22
  | .clear => 0x23
  | .clearleds => 0x24
  | .setleds => 0x25
  | .setled => 0x26
  | .setnumber => 0x30
  | .setnumberpad => 0x31
  | .setnumberhex => 0x32
  | .setchar => 0x33
  | .setchars => 0x34

/-- 30_encoding.md R89: the set-address byte. -/
def setAddressByte (c : Params) (a : BitVec 4) : Byte := c.cmdAddr ||| a.setWidth 8

/-- 30_encoding.md R90: the display-control byte. -/
def displayControlByte (c : Params) (l : BitVec 3) : Byte := c.cmdDisplayOn ||| l.setWidth 8

/-- The request that stands for an instruction (30_encoding.md R82, R85, R86). -/
def encode (c : Params) : Instr → Request
  | .init => .host (hostCode .init) []
  | .fopen => .host (hostCode .fopen) []
  | .fclose => .host (hostCode .fclose) []
  | .send b => .host (hostCode .send) [.byte b]
  | .recv => .host (hostCode .recv) []
  | .command b => .host (hostCode .command) [.byte b]
  | .wrreg a d => .host (hostCode .wrreg) [.nat a, .byte d]
  | .dctl l => .host (hostCode .dctl) [.nat l]
  | .getbuttons => .host (hostCode .getbuttons) []
  | .digreg p => .host (hostCode .digreg) [.nat p]
  | .ledreg p => .host (hostCode .ledreg) [.nat p]
  | .setdots m => .host (hostCode .setdots) [.byte m]
  | .setbyte p v => .host (hostCode .setbyte) [.nat p, .byte v]
  | .setdigit p g => .host (hostCode .setdigit) [.nat p, .nat g]
  | .clear => .host (hostCode .clear) []
  | .clearleds => .host (hostCode .clearleds) []
  | .setleds g r => .host (hostCode .setleds) [.byte g, .byte r]
  | .setled p col => .host (hostCode .setled) [.nat p, .nat col]
  | .setnumber value offset al => .host (hostCode .setnumber) [.nat value, .nat offset, .align al]
  | .setnumberpad value offset width pad =>
    .host (hostCode .setnumberpad) [.nat value, .nat offset, .nat width, .byte pad]
  | .setnumberhex value offset width pad =>
    .host (hostCode .setnumberhex) [.nat value, .nat offset, .nat width, .byte pad]
  | .setchar p ch => .host (hostCode .setchar) [.nat p, .byte ch]
  | .setchars t offset => .host (hostCode .setchars) [.text t, .nat offset]
  | .cmdDataAuto => .wire [c.cmdDataAuto]
  | .cmdDataReadKeys => .wire [c.cmdDataReadKeys]
  | .cmdDataFixed => .wire [c.cmdDataFixed]
  | .cmdAddr a d => .wire [setAddressByte c a, d]
  | .cmdDisplayOn l => .wire [displayControlByte c l]

/-! Words of the table. -/

/-- The operand tuple whose every component is zero: the byte 0x00, the number 0, `RIGHT`, the empty text
(log entry 19). -/
def zeroOperands : HostOp → List Operand
  | .init => []
  | .fopen => []
  | .fclose => []
  | .send => [.byte 0]
  | .recv => []
  | .command => [.byte 0]
  | .wrreg => [.nat 0, .byte 0]
  | .dctl => [.nat 0]
  | .getbuttons => []
  | .digreg => [.nat 0]
  | .ledreg => [.nat 0]
  | .setdots => [.byte 0]
  | .setbyte => [.nat 0, .byte 0]
  | .setdigit => [.nat 0, .nat 0]
  | .clear => []
  | .clearleds => []
  | .setleds => [.byte 0, .byte 0]
  | .setled => [.nat 0, .nat 0]
  | .setnumber => [.nat 0, .nat 0, .align .right]
  | .setnumberpad => [.nat 0, .nat 0, .nat 0, .byte 0]
  | .setnumberhex => [.nat 0, .nat 0, .nat 0, .byte 0]
  | .setchar => [.nat 0, .byte 0]
  | .setchars => [.text [], .nat 0]

/-- The request that a word of `nbits` bits of spec/opcode_table.json stands for: its low byte is the operation code,
with operands of zeros, or a command byte on the wire; a set-address byte takes its data byte from bits 15 to 8. -/
def requestOfWord (c : Params) (nbits w : Nat) : Request :=
  let word := w % 2 ^ nbits
  let b0 := BitVec.ofNat 8 word
  match hostOpOf b0 with
  | some o => .host b0 (zeroOperands o)
  | none =>
    match wireOpOf c b0 with
    | some .addr => .wire [b0, BitVec.ofNat 8 (word / 256)]
    | _ => .wire [b0]

/-- The instruction the decoder reads from a word of the table (the parameters at their defaults). -/
def decodeTableWord (nbits w : Nat) : Option Instr :=
  match decodeRequest Sys2Proof.Machine.defaultParams (requestOfWord Sys2Proof.Machine.defaultParams nbits w) with
  | .ok i => some i
  | .error _ => none

end Sys2Proof
end

