-- ==== Sys2Proof/Machine/State.lean ====
section
/-! DEFINITION. The state of the machine as plain data: the block (10_state.md), the reference far-end model
(20_memory.md R66, R67), the trace (00_scope.md R12) and what the outside has in store (requests, answers to samples);
the reasons a step can stop; the state at reset (10_state.md R39). -/

namespace Sys2Proof.Machine

/-- One bit for each of the three lines (10_state.md R21). -/
structure Lines where
  stb : Bool
  clk : Bool
  dio : Bool
  deriving DecidableEq, Repr

/-- 10_state.md R21: the direction bits (1 output) and the output-level bits of the three lines. `restDir` and `restOut`
are the two registers' bits that belong to no line of the block (R22, 60_exceptions.md R200), read bit by bit. -/
structure Gpio where
  dir : Lines
  out : Lines
  restDir : Nat
  restOut : Nat
  deriving DecidableEq, Repr

/-- 10_state.md R27, R28: the working registers. They hold no value between operations (R29); the model keeps them at
zero then (log entry 2). -/
structure Work where
  txb : Byte
  rxb : Byte
  biti : BitVec 3
  keys : Mask
  bytei : BitVec 2
  deriving DecidableEq, Repr

/-- 10_state.md R30: the sequencer position. -/
inductive Seq
  | idle
  | busy (op : Instr) (k : Nat)
  deriving DecidableEq, Repr

/-- 00_scope.md R12: the four event kinds; a sample carries the value the environment supplied. -/
inductive Event
  | setDir (l : Line) (d : Bool)
  | setOut (l : Line) (v : Bool)
  | sample (l : Line) (v : Bool)
  | delay (t : Nat)
  deriving DecidableEq, Repr

/-- 10_state.md R31, R33: what an operation returns to the host. -/
inductive Result
  | byte (b : Byte)
  | mask (m : Mask)
  | address (a : Nat)
  deriving DecidableEq, Repr

/-- 20_memory.md R66: one bit that passes between the block and the far end, and in which direction. -/
inductive WireBit
  | tx (b : Bool)
  | rx (b : Bool)
  deriving DecidableEq, Repr

/-- 20_memory.md R66: one byte of a frame. -/
inductive Item
  | tx (b : Byte)
  | rx (b : Byte)
  deriving DecidableEq, Repr

/-- 20_memory.md R66: the frame in progress: its complete bytes, and the bits of the byte that is not complete. -/
structure Frame where
  items : List Item
  part : List WireBit
  deriving DecidableEq, Repr

/-- Whether the reference model follows the bus: not before the first INIT (70_reset_and_hazards.md R211), not after a
frame it refused (20_memory.md R69). -/
inductive FarStatus
  | unspecified
  | following
  | refused
  deriving DecidableEq, Repr

/-- 20_memory.md R67: the four key bytes. -/
structure KeyBytes where
  k0 : Byte
  k1 : Byte
  k2 : Byte
  k3 : Byte
  deriving DecidableEq, Repr

/-- 20_memory.md R66, R67: the reference far-end model. A register that `mem` does not list and key bytes with
`keys = none` hold a free value (`State.register`, `State.keyBytes`), and so does the display control where `ctl` is the spec's
`unknown`, none (`State.control`). `some l` is `(on, l)`. `announced` says that the frame before was
`[TX(CMD_DATA_FIXED)]` (R68). -/
structure FarEnd where
  status : FarStatus
  mem : List Host.Cell
  ctl : Option (BitVec 3)
  keys : Option KeyBytes
  announced : Bool
  frame : Option Frame
  deriving DecidableEq, Repr

/-- The machine. -/
structure State where
  /-- The parameters (00_scope.md R8, R9, 10_state.md R34). -/
  cfg : Params
  /-- 10_state.md R21. -/
  gpio : Gpio
  /-- `DOTS`, 10_state.md R25. -/
  dots : Byte
  /-- 10_state.md R27, R28. -/
  work : Work
  /-- 10_state.md R30. -/
  seq : Seq
  /-- 00_scope.md R12: all events so far, the latest first; `State.trace` is the spec's `trace`, in order. -/
  history : List Event
  /-- 10_state.md R31: what the last operation returned, if it returned anything. -/
  result : Option Result
  /-- The requests the host is going to make, in order (10_state.md R32; log entry 7). -/
  requests : List Request
  /-- What the environment drives on `DIO` at the coming samples (10_state.md R23; log entry 8). -/
  env : List (Option Bool)
  /-- How many samples have been taken: the index of the free values (log entry 8). -/
  draws : Nat
  /-- 20_memory.md R66 to R70. -/
  far : FarEnd
  deriving DecidableEq, Repr

/-- 60_exceptions.md R190: the block raises no exception and has no fault, so there is none to name. Nothing raises one;
safe. -/
inductive Fault
  deriving DecidableEq, Repr

/-- 60_exceptions.md R192: the requests that have no meaning. Every one is safe: it errs toward making claims unprovable
(92_eei_decisions.md D4). -/
inductive Refusal
  /-- An instruction the model gives no meaning. Raised by no arm of `exec`. Safe. -/
  | notModelled (mnemonic : String)
  /-- Raised by DIGREG, LEDREG, SETBYTE, SETDIGIT, SETLED and by a write of a pseudo-operation: a position above 7
  (42_display_state.md R153, entry U1). Safe. -/
  | positionOutOfRange (p : Nat)
  /-- Raised by WRREG: an address above 0x0F (41_command_protocol.md R133, entry U1). Safe. -/
  | addressOutOfRange (a : Nat)
  /-- Raised by SETDIGIT and by a SETDIGIT of a pseudo-operation: a glyph index above 15 (42_display_state.md R156,
  entry U2). Safe. -/
  | glyphOutOfRange (g : Nat)
  /-- Raised by DCTL: a level above 7 (41_command_protocol.md R134, entry U3). Safe. -/
  | levelOutOfRange (l : Nat)
  /-- Raised by SETLED: a colour above 3 (42_display_state.md R160, entry U3). Safe. -/
  | colourOutOfRange (col : Nat)
  /-- Raised by `step`: an unassigned host operation code (30_encoding.md R94, entry U3). Safe. -/
  | unassignedOp (op : Byte)
  /-- Raised by `step`: a host request whose operand tuple is not that of its operation (30_encoding.md R81;
  log entry 18). Safe. -/
  | operandShape (op : Byte)
  /-- Raised by `step`: bytes on the wire that head no frame of 30_encoding.md R85 (20_memory.md R69). Safe. -/
  | unknownFrame
  /-- Raised by every operation: a request while `seq` is `BUSY` (10_state.md R32, entry U12). Safe. -/
  | requestWhileBusy
  deriving DecidableEq, Repr

/-- 10_state.md R29: the working registers outside an operation (log entry 2). -/
def Work.empty : Work := ⟨0, 0, 0, 0, 0⟩

/-- 10_state.md R39: the far end at reset, all of it unspecified. -/
def FarEnd.reset : FarEnd := ⟨.unspecified, [], none, none, false, none⟩

/-- 10_state.md R38, R39, 70_reset_and_hazards.md R210: the moment before the first INIT, for any values of the parameters
(00_scope.md R8); `DOTS` is `DOTS_RESET` (R40). The GPIO bits, which the spec leaves unspecified, are those of the family (log
entry 1). -/
def State.resetWith (c : Params) : State where
  cfg := c
  gpio := ⟨⟨false, false, false⟩, ⟨false, false, false⟩, 0, 0⟩
  dots := c.dotsReset
  work := Work.empty
  seq := .idle
  history := []
  result := none
  requests := []
  env := []
  draws := 0
  far := FarEnd.reset

/-- The machine at reset with the parameters at their defaults (00_scope.md R8; log entry 5). -/
def State.reset : State := State.resetWith defaultParams

end Sys2Proof.Machine
end

