-- ==== Sys2Proof/Machine/Memory.lean ====
section
/-! DEFINITION. The DISPLAY space (20_memory.md R50 to R52): sixteen one-byte registers in the far end, held as a list of
(address, byte) pairs with strictly rising addresses. A register that is not listed holds a free value (10_state.md
R39, `draw`; `State.register`, log entry 6). No operation of the block reads it back (20_memory.md R71). -/

namespace Sys2Proof.Machine

/-- The byte that a frame has written to a register, none where none has. -/
def Memory.read : List Host.Cell → Nat → Option Byte
  | [], _ => none
  | (b, v) :: m, a => if b = a then some v else Memory.read m a

/-- 00_scope.md R13: `MemWrite(a, 1, v)`. -/
def Memory.write : List Host.Cell → Nat → Byte → List Host.Cell
  | [], a, v => [(a, v)]
  | (b, w) :: m, a, v =>
    if a < b then (a, v) :: (b, w) :: m
    else if a = b then (a, v) :: m
    else (b, w) :: Memory.write m a v

/-- The addresses are strictly rising. -/
def Memory.sorted : List Host.Cell → Bool
  | [] => true
  | [_] => true
  | (a, _) :: (b, w) :: m => decide (a < b) && Memory.sorted ((b, w) :: m)

/-- The canonical form: strictly rising addresses, none above 0x0F (20_memory.md R52). -/
def Memory.wf (m : List Host.Cell) : Bool :=
  Memory.sorted m && m.all (fun x => decide (x.1 < 16))

end Sys2Proof.Machine
end

