-- ==== Sys2Proof/Machine/FarEnd.lean ====
section
/-! DEFINITION. The reference far-end model (20_memory.md R66 to R71): how the events of the block become frames, and what
a frame does. It is the spec's own model of what stands outside the block (92_eei_decisions.md D17), not the real chip. -/

namespace Sys2Proof.Machine

/-- The bit of a line. -/
def Lines.get (b : Lines) : Line → Bool
  | .stb => b.stb
  | .clk => b.clk
  | .dio => b.dio

/-- The bits with the bit of one line replaced. -/
def Lines.set (b : Lines) (l : Line) (v : Bool) : Lines :=
  match l with
  | .stb => { b with stb := v }
  | .clk => { b with clk := v }
  | .dio => { b with dio := v }

/-- 20_memory.md R66: eight bits form a byte, the first in bit 0. -/
def byteOfBits : List Bool → Byte
  | [] => 0
  | b :: bs => (byteOfBits bs <<< 1) ||| (if b then 1 else 0)

def WireBit.isTx : WireBit → Bool
  | .tx _ => true
  | .rx _ => false

def WireBit.bit : WireBit → Bool
  | .tx b => b
  | .rx b => b

/-- 20_memory.md R66: eight consecutive bits of one direction form an item. -/
def itemOfBits (bs : List WireBit) : Option Item :=
  if bs.length = 8 then
    if bs.all (·.isTx) then some (.tx (byteOfBits (bs.map (·.bit))))
    else if bs.all (fun b => !b.isTx) then some (.rx (byteOfBits (bs.map (·.bit))))
    else none
  else none

/-- 20_memory.md R66: a frame with one more bit. -/
def Frame.push (w : WireBit) (fr : Frame) : Frame :=
  match itemOfBits (fr.part ++ [w]) with
  | some it => ⟨fr.items ++ [it], []⟩
  | none => ⟨fr.items, fr.part ++ [w]⟩

/-- 10_state.md R36, R39: what is known of the addressing mode, `none` where it is unspecified (`State.mode` is its value). The
reference model knows it only when the frame before was `[TX(CMD_DATA_FIXED)]` (20_memory.md R68; log entry 20). -/
def FarEnd.mode (f : FarEnd) : Option AddrMode := if f.announced then some .fixed else none

/-- 10_state.md R36: the set-address command positions the cursor. -/
def cursorOf (c : Params) : List Item → Option (BitVec 4)
  | .tx b :: _ =>
    match decodeWire c [b, 0] with
    | some (.cmdAddr a _) => some a
    | _ => none
  | _ => none

/-- 10_state.md R36, R39: what is known of the cursor, `none` where it is unspecified, as it is between frames (`State.cursor` is
its value; log entry 20). -/
def FarEnd.cursor (c : Params) (f : FarEnd) : Option (BitVec 4) :=
  match f.frame with
  | some fr => cursorOf c fr.items
  | none => none

/-- 20_memory.md R69: the reference model refuses the frame, and from then on knows nothing (log entry 10). -/
def FarEnd.refuse (_ : FarEnd) : FarEnd := { FarEnd.reset with status := .refused }

/-- 20_memory.md R68, `[TX(CMD_DATA_AUTO)]`: no effect. -/
def FarEnd.dataAuto (f : FarEnd) : FarEnd := { f with announced := false, frame := none }

/-- 20_memory.md R68, `[TX(CMD_DATA_FIXED)]`: announces a fixed-address write. -/
def FarEnd.dataFixed (f : FarEnd) : FarEnd := { f with announced := true, frame := none }

/-- 20_memory.md R68, the write frame: `mem[a] <- d`. -/
def FarEnd.store (a : BitVec 4) (d : Byte) (f : FarEnd) : FarEnd :=
  { f with mem := Memory.write f.mem a.toNat d, announced := false, frame := none }

/-- 20_memory.md R68, `[TX(CMD_DISPLAY_ON | l)]`: `ctl <- (on, l)`. -/
def FarEnd.displayOn (l : BitVec 3) (f : FarEnd) : FarEnd :=
  { f with ctl := some l, announced := false, frame := none }

/-- 20_memory.md R68, the read frame: `(K0, K1, K2, K3)` are the bytes received. -/
def FarEnd.readKeys (k : KeyBytes) (f : FarEnd) : FarEnd :=
  { f with keys := some k, announced := false, frame := none }

/-- 20_memory.md R68, R69: the effect of a complete frame. -/
def FarEnd.receive (c : Params) (items : List Item) (f : FarEnd) : FarEnd :=
  match items with
  | [.tx b] =>
    match decodeWire c [b] with
    | some .cmdDataAuto => f.dataAuto
    | some .cmdDataFixed => f.dataFixed
    | some (.cmdDisplayOn l) => f.displayOn l
    | _ => f.refuse
  | [.tx b, .tx d] =>
    match cursorOf c [.tx b, .tx d], f.mode with
    | some a, some .fixed => f.store a d
    | _, _ => f.refuse
  | [.tx b, .rx k0, .rx k1, .rx k2, .rx k3] =>
    match decodeWire c [b] with
    | some .cmdDataReadKeys => f.readKeys ⟨k0, k1, k2, k3⟩
    | _ => f.refuse
  | _ => f.refuse

/-- 20_memory.md R66, R69: the strobe rises. Bits that are not a multiple of eight have no meaning. -/
def FarEnd.close (c : Params) (fr : Frame) (f : FarEnd) : FarEnd :=
  match fr.part with
  | [] => f.receive c fr.items
  | _ :: _ => f.refuse

/-- 20_memory.md R66: one event, `g` being the GPIO bits before it, seen by a reference model that follows the bus. -/
def FarEnd.see (c : Params) (g : Gpio) (e : Event) (f : FarEnd) : FarEnd :=
  match e with
  | .setOut .stb false => if g.out.stb then { f with frame := some ⟨[], []⟩ } else f
  | .setOut .stb true =>
    match f.frame with
    | some fr => f.close c fr
    | none => f
  | .setOut .clk true =>
    match f.frame with
    | some fr =>
      if g.dir.dio && !g.out.clk then { f with frame := some (fr.push (.tx g.out.dio)) } else f
    | none => f
  | .sample .dio v =>
    match f.frame with
    | some fr => if g.dir.dio then f else { f with frame := some (fr.push (.rx v)) }
    | none => f
  | .setOut .clk false => f
  | .setOut .dio _ => f
  | .setDir _ _ => f
  | .sample .stb _ => f
  | .sample .clk _ => f
  | .delay _ => f

/-- 20_memory.md R66, 70_reset_and_hazards.md R211: an event before the first INIT has no specified effect (log entry 11),
and after a refused frame there is none either (R69). -/
def FarEnd.observe (c : Params) (g : Gpio) (e : Event) (f : FarEnd) : FarEnd :=
  match f.status with
  | .unspecified => f
  | .refused => f
  | .following => f.see c g e

/-- 70_reset_and_hazards.md R211: from the first INIT on the reference model follows the bus, its registers unknown as
at reset (10_state.md R39). -/
def FarEnd.follow (f : FarEnd) : FarEnd :=
  match f.status with
  | .unspecified => { FarEnd.reset with status := .following }
  | .refused => f
  | .following => f

/-! What every piece of the far end's state holds (10_state.md R36, R39, 20_memory.md R67; log entries 6, 20, 23). -/

/-- The index of the free values that stand for what is unspecified in the far end. While the reference model follows the bus
only a frame changes a register or the display control, so the index stays; before the first INIT and after a refused frame every event may have an
effect nobody specifies, so it is another one after each. -/
def State.unknowns (s : State) : Nat :=
  match s.far.status with
  | .following => 0
  | .unspecified => s.history.length + 1
  | .refused => s.history.length + 1

/-- 20_memory.md R50, R52, R67: the byte a register of the DISPLAY space holds, a free value where no frame has written it; none
for an address that does not exist. -/
def State.register (s : State) (a : Nat) : Option Byte :=
  if a ≤ 0x0F then some ((Memory.read s.far.mem a).getD (Config.register s.unknowns a)) else none

/-- 20_memory.md R53, R67: the key bytes, free values where no read-keys frame has taken them. -/
def State.keyBytes (s : State) : KeyBytes :=
  s.far.keys.getD ⟨Config.key s.unknowns 0, Config.key s.unknowns 1, Config.key s.unknowns 2, Config.key s.unknowns 3⟩

/-- 10_state.md R36, R39, 20_memory.md R67: the display control, a free value where no display-control frame has set it. -/
def State.control (s : State) : DisplayControl :=
  (s.far.ctl.map (fun l => ⟨true, l⟩)).getD (Config.control s.unknowns)

/-- 10_state.md R36, R39: the addressing mode. Where it is unspecified it may be any value at any time
(93_implementation_defined.md U9): a free value after each event. -/
def State.mode (s : State) : AddrMode := s.far.mode.getD (Config.mode s.history.length)

/-- 10_state.md R36, R39: the cursor. Where it is unspecified it may be any value at any time (93_implementation_defined.md U9): a
free value after each event. -/
def State.cursor (s : State) : BitVec 4 := (s.far.cursor s.cfg).getD (Config.cursor s.history.length)

end Sys2Proof.Machine
end

