-- ==== Sys2Proof/Machine/Flags.lean ====
section
/-! DEFINITION. The block has no flag, condition code, busy bit or error bit (10_state.md R33), so no operation computes
one. What an operation has instead is how it ends: the result it returns (R31, R33), and for SETDOTS the register it
writes without an event (42_display_state.md R154). -/

namespace Sys2Proof.Machine

/-- How an operation ends. -/
inductive Finish
  /-- No result. -/
  | nothing
  /-- RECV: returns `RXB` (40_bus_transport.md R116). -/
  | returnRxb
  /-- GETBUTTONS: returns `KEYS` (41_command_protocol.md R136). -/
  | returnKeys
  /-- DIGREG, LEDREG: returns an address (42_display_state.md R151, R152). -/
  | returnAddress (a : Nat)
  /-- SETDOTS: `x[DOTS] <- m` (42_display_state.md R154). -/
  | writeDots (m : Byte)
  deriving DecidableEq, Repr

/-- The result, from the working registers at the end of the operation. -/
def Finish.result (w : Work) : Finish → Option Result
  | .nothing => none
  | .returnRxb => some (.byte w.rxb)
  | .returnKeys => some (.mask w.keys)
  | .returnAddress a => some (.address a)
  | .writeDots _ => none

/-- `DOTS` at the end of the operation, from what it was (10_state.md R25, R40). -/
def Finish.dots (d : Byte) : Finish → Byte
  | .nothing => d
  | .returnRxb => d
  | .returnKeys => d
  | .returnAddress _ => d
  | .writeDots m => m

/-- 10_state.md R31: the operation's last event has been performed, so `seq <- IDLE` and the result is returned; the
working registers do not survive the operation (R26, R29; log entry 2). -/
def State.complete (f : Finish) (s : State) : State :=
  { s with seq := .idle, work := Work.empty, result := f.result s.work, dots := f.dots s.dots }

end Sys2Proof.Machine
end

