-- ==== Sys2Proof/Machine/Operands.lean ====
section
/-! DEFINITION. Operand assembly (30_encoding.md R88 to R93) and the domain of each operand (R81, R94, 60_exceptions.md
R192). -/

namespace Sys2Proof.Machine

/-- 42_display_state.md R151, 30_encoding.md R88: `2 * p`. -/
def digitRegister (p : Nat) : Nat := 2 * p

/-- 42_display_state.md R152, 30_encoding.md R88: `1 + 2 * p`. -/
def ledRegister (p : Nat) : Nat := 1 + 2 * p

/-- 42_display_state.md R155, 30_encoding.md R91: the byte with the decimal-point bit where the dot mask asks for it. -/
def digitByte (dots : Byte) (p : Nat) (v : Byte) : Byte := v ||| (if dots.getLsbD p then 0x80 else 0x00)

/-- 30_encoding.md R92: the LED byte of a green and a red bit. -/
def ledByte (c : Params) (green red : Bool) : Byte :=
  (if green then c.ledGreen else 0) ||| (if red then c.ledRed else 0)

/-- 42_display_state.md R160: GREEN is 1, RED is 2, BOTH is 3. -/
def colourGreen (col : Nat) : Bool := col == 1 || col == 3

/-- 42_display_state.md R160. -/
def colourRed (col : Nat) : Bool := col == 2 || col == 3

/-- 42_display_state.md R156, 00_scope.md R9: `FONT[g]`, for a `g` in 0 to 15. -/
def glyph (c : Params) (g : Nat) : Byte := (c.font.toList)[g]?.getD 0

/-- 00_scope.md R9: `CHARLOOKUP(ch)`, the sentinel zero for an unsupported character. -/
def charLookupOf (c : Params) (ch : Byte) : Byte := ((c.charLookup.find? (fun x => x.1 == ch)).map (·.2)).getD 0

/-- 30_encoding.md R88: positions in ascending order (92_eei_decisions.md D14). -/
def positions : List Nat := [0, 1, 2, 3, 4, 5, 6, 7]

/-- 42_display_state.md R153, 93_implementation_defined.md U1: the refusal of a position, none in 0 to 7. -/
def positionStop (p : Nat) : Option Refusal := if p ≤ 7 then none else some (.positionOutOfRange p)

/-- 41_command_protocol.md R133, U1: the refusal of an address. -/
def addressStop (a : Nat) : Option Refusal := if a ≤ 0x0F then none else some (.addressOutOfRange a)

/-- 42_display_state.md R156, U2: the refusal of a glyph index. -/
def glyphStop (g : Nat) : Option Refusal := if g ≤ 15 then none else some (.glyphOutOfRange g)

/-- 41_command_protocol.md R134, U3: the refusal of a level. -/
def levelStop (l : Nat) : Option Refusal := if l ≤ 7 then none else some (.levelOutOfRange l)

/-- 42_display_state.md R160, U3: the refusal of a colour. -/
def colourStop (col : Nat) : Option Refusal := if col ≤ 3 then none else some (.colourOutOfRange col)

end Sys2Proof.Machine
end

