-- ==== Sys2Proof/Machine/Ops.lean ====
section
/-! DEFINITION. The named operations on the state: the events (00_scope.md R12), the transfers of the working registers
(10_state.md R27, R28), micro-operations (one event each, 10_state.md R30), and how an operation runs: whole
(`perform`, R32) or one event at a time (`start`, `advance`, R31).

Taking an exception and returning from one: the block has neither (60_exceptions.md R190, R195, R196), so there is no
such operation here. -/

namespace Sys2Proof.Machine

/-! Levels (10_state.md R23). -/

/-- 10_state.md R23: what the environment drives on a line at this moment, none where it does not drive it. For `DIO` it is
the next entry of the script `env`; past the script's end, and for the other lines, a free value.
DESIGN CHOICE: when the far end presents each received bit is not in the spec (40_bus_transport.md R117, 91_not_in_source.md N5).
Here the line carries the bit of the next sample from the moment the sample before was taken, so it changes at the `Sample`
event and at no clock edge (log entry 22). No operation reads the line between two samples. -/
def State.drive (s : State) (l : Line) : Option Bool :=
  match l, s.env with
  | .dio, d :: _ => d
  | .dio, [] => Config.ext .dio s.draws
  | .stb, _ => Config.ext .stb s.draws
  | .clk, _ => Config.ext .clk s.draws

/-- 10_state.md R23: `level(L)`, which is `gpio.in[L]`. An output's level is its output bit, also where the environment
drives the line too (entry U7; log entry 13). -/
def State.level (s : State) (l : Line) : Bool :=
  if s.gpio.dir.get l then s.gpio.out.get l
  else match s.drive l with
    | some v => v
    | none => if s.gpio.out.get l then true else Config.floating l s.draws

/-! The port's registers bit by bit (10_state.md R21, R22, 60_exceptions.md R200). -/

/-- 00_scope.md R8, 10_state.md R21: the line of the block at a bit position of the port. -/
def lineAt (c : Params) (n : Nat) : Option Line :=
  if n = c.stbBit then some .stb
  else if n = c.clkBit then some .clk
  else if n = c.dioBit then some .dio
  else none

/-- Bit `n` of the output-direction register. -/
def State.dirBit (s : State) (n : Nat) : Bool :=
  match lineAt s.cfg n with
  | some l => s.gpio.dir.get l
  | none => s.gpio.restDir.testBit n

/-- Bit `n` of the output-level register. -/
def State.outBit (s : State) (n : Nat) : Bool :=
  match lineAt s.cfg n with
  | some l => s.gpio.out.get l
  | none => s.gpio.restOut.testBit n

/-! Events (00_scope.md R12). -/

/-- 00_scope.md R12: `trace`, all events so far, in order. -/
def State.trace (s : State) : List Event := s.history.reverse

/-- 10_state.md R22: what an event does to the GPIO bits: a write changes one bit, the others change none. -/
def Gpio.apply (e : Event) (g : Gpio) : Gpio :=
  match e with
  | .setDir l d => { g with dir := g.dir.set l d }
  | .setOut l v => { g with out := g.out.set l v }
  | .sample _ _ => g
  | .delay _ => g

/-- 00_scope.md R12, 10_state.md R22: the event takes effect and is recorded, also when it changes nothing; the far end
sees it (20_memory.md R66). -/
def State.emit (e : Event) (s : State) : State :=
  { s with
    history := e :: s.history
    gpio := s.gpio.apply e
    far := s.far.observe s.cfg s.gpio e }

/-- 00_scope.md R12: the next answer of the environment has been used. -/
def State.draw (s : State) : State := { s with env := s.env.tail, draws := s.draws + 1 }

/-- A byte with one bit replaced: `v[i] <- b`. -/
def setBit (v : Byte) (i : Nat) (b : Bool) : Byte :=
  (v &&& ~~~((1 : Byte) <<< i)) ||| ((if b then 1 else 0) <<< i)

/-! Micro-operations. -/

/-- Transfers of the working registers, which are no events (10_state.md R27, R28), and the moment the reference model
begins to follow the bus (70_reset_and_hazards.md R211). -/
inductive Transfer
  /-- `x[TXB] <- b` -/
  | loadTxb (b : Byte)
  /-- `x[RXB] <- 0` -/
  | clearRxb
  /-- `x[BITI] <- i` -/
  | setBiti (i : BitVec 3)
  /-- `x[KEYS] <- 0` -/
  | clearKeys
  /-- `x[BYTEI] <- j` -/
  | setBytei (j : BitVec 2)
  /-- `x[KEYS] <- x[KEYS] | (zext_32(x[RXB]) << (8 * x[BYTEI]))` -/
  | mergeKeys
  /-- The reference far-end model begins to follow the bus. -/
  | follow
  deriving DecidableEq, Repr

/-- The one event of a micro-operation. -/
inductive Action
  /-- `SetDir(L, d)` -/
  | setDir (l : Line) (d : Bool)
  /-- `SetOut(L, v)` -/
  | setOut (l : Line) (v : Bool)
  /-- `SetOut(DIO, x[TXB][x[BITI]])` -/
  | sendBit
  /-- `Delay(T_SETTLE)` -/
  | settle
  /-- `s <- Sample(DIO); x[RXB][x[BITI]] <- s` -/
  | sampleBit
  deriving DecidableEq, Repr

/-- One event, with the transfers that come before it. -/
structure Micro where
  pre : List Transfer
  act : Action
  deriving DecidableEq, Repr

/-- 10_state.md R27, R28. -/
def Transfer.run (t : Transfer) (s : State) : State :=
  match t with
  | .loadTxb b => { s with work := { s.work with txb := b } }
  | .clearRxb => { s with work := { s.work with rxb := 0 } }
  | .setBiti i => { s with work := { s.work with biti := i } }
  | .clearKeys => { s with work := { s.work with keys := 0 } }
  | .setBytei j => { s with work := { s.work with bytei := j } }
  | .mergeKeys =>
    { s with work := { s.work with keys := s.work.keys ||| (s.work.rxb.setWidth 32 <<< (8 * s.work.bytei.toNat)) } }
  | .follow => { s with far := s.far.follow }

/-- 10_state.md R27: `x[RXB][x[BITI]] <- v`. -/
def State.keepSample (v : Bool) (s : State) : State :=
  { s with work := { s.work with rxb := setBit s.work.rxb s.work.biti.toNat v } }

/-- 00_scope.md R12. -/
def Action.run (a : Action) (s : State) : State :=
  match a with
  | .setDir l d => s.emit (.setDir l d)
  | .setOut l v => s.emit (.setOut l v)
  | .sendBit => s.emit (.setOut .dio (s.work.txb.getLsbD s.work.biti.toNat))
  | .settle => s.emit (.delay s.cfg.tSettle)
  | .sampleBit => ((s.emit (.sample .dio (s.level .dio))).keepSample (s.level .dio)).draw

/-- The transfers, then the event. -/
def Micro.run (m : Micro) (s : State) : State :=
  m.act.run (m.pre.foldl (fun s t => t.run s) s)

/-- 10_state.md R31: the micro-operations in order. -/
def State.runMicros (ms : List Micro) (s : State) : State :=
  ms.foldl (fun s m => m.run s) s

/-- A list of micro-operations with transfers before its first event. -/
def withPre (ts : List Transfer) : List Micro → List Micro
  | [] => []
  | m :: ms => ⟨ts ++ m.pre, m.act⟩ :: ms

/-! Operations. -/

/-- 10_state.md R30: what an operation does: its events, how it ends, and, where a request of it is refused
(60_exceptions.md R192), the refusal, which comes after the events of the writes made before (43_formatter.md R176;
log entry 14). -/
structure Plan where
  micros : List Micro
  finish : Finish
  stop : Option Refusal
  deriving DecidableEq, Repr

/-- An operation that is refused before any event. -/
def Plan.refusal (r : Refusal) : Plan := ⟨[], .nothing, some r⟩

/-- An operation with the given events and no result, or the refusal of its operands. -/
def Plan.guarded (stop : Option Refusal) (ms : List Micro) (f : Finish) : Plan :=
  match stop with
  | some r => Plan.refusal r
  | none => ⟨ms, f, none⟩

/-- Requests one after another, up to the first that is refused (43_formatter.md R176). -/
def Plan.sequence : List Plan → Plan
  | [] => ⟨[], .nothing, none⟩
  | p :: ps =>
    match p.stop with
    | some r => ⟨p.micros, .nothing, some r⟩
    | none => ⟨p.micros ++ (Plan.sequence ps).micros, (Plan.sequence ps).finish, (Plan.sequence ps).stop⟩

/-- The state after the events of a plan, be it refused in the end or not. -/
def Plan.reached (p : Plan) (s : State) : State := s.runMicros p.micros

/-- 10_state.md R32: a request when `seq = IDLE` runs as one big step; while `seq` is `BUSY` it has no move. -/
def perform (p : Plan) (s : State) : Host.Outcome State Fault Refusal :=
  match s.seq with
  | .busy _ _ => .refused .requestWhileBusy
  | .idle =>
    match p.stop with
    | some r => .refused r
    | none => .next ((p.reached s).complete p.finish)

/-- 10_state.md R31: from `IDLE` a request sets `seq <- BUSY(op, 0)`, or completes at once where it has no event. -/
def start (p : Plan) (i : Instr) (s : State) : Host.Outcome State Fault Refusal :=
  match s.seq with
  | .busy _ _ => .refused .requestWhileBusy
  | .idle =>
    match p.micros, p.stop with
    | _ :: _, _ => .next { s with seq := .busy i 0 }
    | [], some r => .refused r
    | [], none => .next (s.complete p.finish)

/-- 10_state.md R31: in `BUSY(op, k)` event `k` is performed and `seq <- BUSY(op, k+1)`, or `seq <- IDLE` after the last. A
plan that is refused in the end stops there, its events having been performed. -/
def advance (p : Plan) (i : Instr) (k : Nat) (s : State) : Host.Outcome State Fault Refusal :=
  match p.micros[k]?, p.stop with
  | some m, some _ => .next { m.run s with seq := .busy i (k + 1) }
  | some m, none =>
    if k + 1 < p.micros.length then .next { m.run s with seq := .busy i (k + 1) }
    else .next ((m.run s).complete p.finish)
  | none, some r => .refused r
  | none, none => .next (s.complete p.finish)

end Sys2Proof.Machine
end

