-- ==== Sys2Proof/Machine/Transport.lean ====
section
/-! DEFINITION. Bus Transport (40_bus_transport.md): FOPEN, FCLOSE, SEND, RECV. Each is total in every state in which a
request can be made (R110), sets no flag and raises nothing (R118). -/

namespace Sys2Proof.Machine

/-- 10_state.md R27: the values of `BITI`, in the order of the loops of SEND and RECV. -/
def bitIndices : List (BitVec 3) := [0, 1, 2, 3, 4, 5, 6, 7]

/-- R112: `SetOut(STB, 0)`. -/
def fopenMicros : List Micro := [⟨[], .setOut .stb false⟩]

/-- R113: `SetOut(STB, 1)`. -/
def fcloseMicros : List Micro := [⟨[], .setOut .stb true⟩]

/-- 30_encoding.md R83: the transmit bit cell. -/
def sendCell (i : BitVec 3) : List Micro :=
  [⟨[.setBiti i], .setOut .clk false⟩, ⟨[], .sendBit⟩, ⟨[], .setOut .clk true⟩]

/-- R114: `x[TXB] <- b`, then eight transmit bit cells, bit 0 first. -/
def sendMicros (b : Byte) : List Micro := withPre [.loadTxb b] (bitIndices.flatMap sendCell)

/-- 30_encoding.md R83: the receive bit cell. -/
def recvCell (i : BitVec 3) : List Micro :=
  [⟨[.setBiti i], .setOut .clk false⟩, ⟨[], .settle⟩, ⟨[], .sampleBit⟩, ⟨[], .setOut .clk true⟩]

/-- R116: the line becomes an input with pull-up, `x[RXB] <- 0`, eight receive bit cells, the line an output again, low. -/
def recvMicros : List Micro :=
  [⟨[], .setDir .dio false⟩, ⟨[], .setOut .dio true⟩]
  ++ withPre [.clearRxb] (bitIndices.flatMap recvCell)
  ++ [⟨[], .setOut .dio false⟩, ⟨[], .setDir .dio true⟩]

def planFopen : Plan := ⟨fopenMicros, .nothing, none⟩
def planFclose : Plan := ⟨fcloseMicros, .nothing, none⟩
def planSend (b : Byte) : Plan := ⟨sendMicros b, .nothing, none⟩
def planRecv : Plan := ⟨recvMicros, .returnRxb, none⟩

/-- R112. -/
def execFopen (s : State) : Host.Outcome State Fault Refusal := perform planFopen s

/-- R113. -/
def execFclose (s : State) : Host.Outcome State Fault Refusal := perform planFclose s

/-- R114. -/
def execSend (b : Byte) (s : State) : Host.Outcome State Fault Refusal := perform (planSend b) s

/-- R116. -/
def execRecv (s : State) : Host.Outcome State Fault Refusal := perform planRecv s

end Sys2Proof.Machine
end

