-- ==== Sys2Proof/Machine/Protocol.lean ====
section
/-! DEFINITION. Command Protocol (41_command_protocol.md): COMMAND, WRREG, DCTL, GETBUTTONS, INIT, each a fixed sequence of
transport operations (R130). -/

namespace Sys2Proof.Machine

/-- R131: `FOPEN; SEND c; FCLOSE`. -/
def commandMicros (b : Byte) : List Micro := fopenMicros ++ sendMicros b ++ fcloseMicros

/-- 30_encoding.md R85, format FW: `FOPEN; SEND b; SEND d; FCLOSE`. -/
def writeFrameMicros (b d : Byte) : List Micro := fopenMicros ++ sendMicros b ++ sendMicros d ++ fcloseMicros

/-- R132, R133: the fixed-address command frame, then the write frame, always both. -/
def wrregMicros (c : Params) (a : Nat) (d : Byte) : List Micro :=
  commandMicros c.cmdDataFixed ++ writeFrameMicros (setAddressByte c (BitVec.ofNat 4 a)) d

/-- R136: one pass of the loop: `k <- RECV`, with `x[BYTEI] <- j` before it. -/
def keyByteMicros (j : BitVec 2) : List Micro := withPre [.setBytei j] recvMicros

/-- R135, R136: `x[KEYS] <- 0`, the command byte, four bytes, each merged into `KEYS` after it was received. -/
def readKeysMicros (c : Params) : List Micro :=
  withPre [.clearKeys] fopenMicros ++ sendMicros c.cmdDataReadKeys
  ++ keyByteMicros 0
  ++ withPre [.mergeKeys] (keyByteMicros 1)
  ++ withPre [.mergeKeys] (keyByteMicros 2)
  ++ withPre [.mergeKeys] (keyByteMicros 3)
  ++ withPre [.mergeKeys] fcloseMicros

/-- R137: the pin configuration; from here on the reference far-end model follows the bus
(70_reset_and_hazards.md R211). -/
def pinMicros : List Micro :=
  [⟨[.follow], .setOut .stb true⟩, ⟨[], .setOut .clk true⟩, ⟨[], .setOut .dio false⟩,
   ⟨[], .setDir .stb true⟩, ⟨[], .setDir .clk true⟩, ⟨[], .setDir .dio true⟩]

/-- 42_display_state.md R157: eight writes of zero to the digit registers, in ascending order. -/
def clearMicros (c : Params) : List Micro := positions.flatMap (fun p => wrregMicros c (digitRegister p) 0x00)

/-- 42_display_state.md R158: eight writes of zero to the LED registers, in ascending order. -/
def clearledsMicros (c : Params) : List Micro := positions.flatMap (fun p => wrregMicros c (ledRegister p) 0x00)

/-- R138. -/
def initMicros (c : Params) : List Micro :=
  pinMicros ++ commandMicros c.cmdDataAuto ++ commandMicros (displayControlByte c c.brightness)
  ++ clearMicros c ++ clearledsMicros c

def planCommand (b : Byte) : Plan := ⟨commandMicros b, .nothing, none⟩

/-- R133: refused for `a > 0x0F`. -/
def planWrreg (c : Params) (a : Nat) (d : Byte) : Plan := Plan.guarded (addressStop a) (wrregMicros c a d) .nothing

/-- R134: refused for `l > 7`. -/
def planDctl (c : Params) (l : Nat) : Plan :=
  Plan.guarded (levelStop l) (commandMicros (displayControlByte c (BitVec.ofNat 3 l))) .nothing

def planGetbuttons (c : Params) : Plan := ⟨readKeysMicros c, .returnKeys, none⟩
def planInit (c : Params) : Plan := ⟨initMicros c, .nothing, none⟩

/-- R131. -/
def execCommand (b : Byte) (s : State) : Host.Outcome State Fault Refusal := perform (planCommand b) s

/-- R133. -/
def execWrreg (a : Nat) (d : Byte) (s : State) : Host.Outcome State Fault Refusal := perform (planWrreg s.cfg a d) s

/-- R134. -/
def execDctl (l : Nat) (s : State) : Host.Outcome State Fault Refusal := perform (planDctl s.cfg l) s

/-- R136. -/
def execGetbuttons (s : State) : Host.Outcome State Fault Refusal := perform (planGetbuttons s.cfg) s

/-- R138; also a second time (70_reset_and_hazards.md R213). -/
def execInit (s : State) : Host.Outcome State Fault Refusal := perform (planInit s.cfg) s

end Sys2Proof.Machine
end

