-- ==== Sys2Proof/Machine/Display.lean ====
section
/-! DEFINITION. Register Map and Display State (42_display_state.md): DIGREG, LEDREG, SETDOTS, SETBYTE, SETDIGIT, CLEAR,
CLEARLEDS, SETLEDS, SETLED. -/

namespace Sys2Proof.Machine

/-- R151, R153. -/
def planDigreg (p : Nat) : Plan := Plan.guarded (positionStop p) [] (.returnAddress (digitRegister p))

/-- R152, R153. -/
def planLedreg (p : Nat) : Plan := Plan.guarded (positionStop p) [] (.returnAddress (ledRegister p))

/-- R154: no event, nothing sent. -/
def planSetdots (m : Byte) : Plan := ⟨[], .writeDots m, none⟩

/-- R155: `WRREG DIGREG(p), v | (0x80 if x[DOTS][p] = 1 else 0x00)`. -/
def planSetbyte (c : Params) (dots : Byte) (p : Nat) (v : Byte) : Plan :=
  Plan.guarded (positionStop p) (wrregMicros c (digitRegister p) (digitByte dots p v)) .nothing

/-- R156: `SETBYTE p, FONT[g]`, refused for a position above 7 and for a glyph index above 15. -/
def planSetdigit (c : Params) (dots : Byte) (p g : Nat) : Plan :=
  match glyphStop g with
  | some r => Plan.refusal (((positionStop p).getD r))
  | none => planSetbyte c dots p (glyph c g)

def planClear (c : Params) : Plan := ⟨clearMicros c, .nothing, none⟩
def planClearleds (c : Params) : Plan := ⟨clearledsMicros c, .nothing, none⟩

/-- R159: bit `p` of each mask is LED position `p`; all eight registers are written. -/
def setledsMicros (c : Params) (g r : Byte) : List Micro :=
  positions.flatMap (fun p => wrregMicros c (ledRegister p) (ledByte c (g.getLsbD p) (r.getLsbD p)))

def planSetleds (c : Params) (g r : Byte) : Plan := ⟨setledsMicros c g r, .nothing, none⟩

/-- R160: refused for a position above 7 and for a colour above 3. -/
def planSetled (c : Params) (p col : Nat) : Plan :=
  match colourStop col with
  | some r => Plan.refusal ((positionStop p).getD r)
  | none =>
    Plan.guarded (positionStop p) (wrregMicros c (ledRegister p) (ledByte c (colourGreen col) (colourRed col))) .nothing

/-- R151. -/
def execDigreg (p : Nat) (s : State) : Host.Outcome State Fault Refusal := perform (planDigreg p) s

/-- R152. -/
def execLedreg (p : Nat) (s : State) : Host.Outcome State Fault Refusal := perform (planLedreg p) s

/-- R154. -/
def execSetdots (m : Byte) (s : State) : Host.Outcome State Fault Refusal := perform (planSetdots m) s

/-- R155. -/
def execSetbyte (p : Nat) (v : Byte) (s : State) : Host.Outcome State Fault Refusal :=
  perform (planSetbyte s.cfg s.dots p v) s

/-- R156. -/
def execSetdigit (p g : Nat) (s : State) : Host.Outcome State Fault Refusal :=
  perform (planSetdigit s.cfg s.dots p g) s

/-- R157. -/
def execClear (s : State) : Host.Outcome State Fault Refusal := perform (planClear s.cfg) s

/-- R158. -/
def execClearleds (s : State) : Host.Outcome State Fault Refusal := perform (planClearleds s.cfg) s

/-- R159. -/
def execSetleds (g r : Byte) (s : State) : Host.Outcome State Fault Refusal := perform (planSetleds s.cfg g r) s

/-- R160. -/
def execSetled (p col : Nat) (s : State) : Host.Outcome State Fault Refusal := perform (planSetled s.cfg p col) s

end Sys2Proof.Machine
end

