-- ==== Sys2Proof/Machine/Formatter.lean ====
section
/-! DEFINITION. Number/Text Formatter (43_formatter.md): SETNUMBER, SETNUMBERPAD, SETNUMBERHEX, SETCHAR, SETCHARS. Each
expands into SETDIGIT and SETBYTE requests and does nothing else (30_encoding.md R98). The requests of one expansion run
in order; the first that is refused stops it, the writes before it having been made (R172, R176). -/

namespace Sys2Proof.Machine

/-- 30_encoding.md R98: a request of an expansion. -/
inductive DigitRequest
  /-- `SETDIGIT p, g` -/
  | digit (p g : Nat)
  /-- `SETBYTE p, v` -/
  | byte (p : Nat) (v : Byte)
  deriving DecidableEq, Repr

/-- R170: the cursor stepped down; `none` is the sentinel `NONE`. -/
def dec (cur : Option Nat) : Option Nat :=
  match cur with
  | none => none
  | some 0 => none
  | some (c + 1) => some c

/-- R171: the number of decimal digits, found by dividing by ten; `fuel` bounds the divisions. -/
def digitCount : (fuel value : Nat) → Nat
  | 0, _ => 1
  | fuel + 1, value => if value < 10 then 1 else 1 + digitCount fuel (value / 10)

/-- R171: `ndigits10(value)`. -/
def ndigits10 (value : Nat) : Nat := digitCount value value

/-- What the digit loop of a renderer leaves: the requests it made, the width and the cursor. -/
structure Rendered where
  requests : List DigitRequest
  width : Nat
  cur : Option Nat
  deriving DecidableEq, Repr

/-- R173, R174: `while width != 0 and cur != NONE and (value != 0 or first)`, the digits in the given base. -/
def digitLoop (base : Nat) : (width : Nat) → (cur : Option Nat) → (value : Nat) → (first : Bool) → Rendered
  | 0, cur, _, _ => ⟨[], 0, cur⟩
  | width + 1, none, _, _ => ⟨[], width + 1, none⟩
  | width + 1, some p, value, first =>
    if value ≠ 0 ∨ first = true then
      let rest := digitLoop base width (dec (some p)) (value / base) false
      ⟨.digit p (value % base) :: rest.requests, rest.width, rest.cur⟩
    else ⟨[], width + 1, some p⟩

/-- R173, R174: `while width != 0 and cur != NONE: SETBYTE cur, pad`. -/
def padLoop (pad : Byte) : (width : Nat) → (cur : Option Nat) → List DigitRequest
  | 0, _ => []
  | _ + 1, none => []
  | width + 1, some p => .byte p pad :: padLoop pad width (dec (some p))

/-- R172: where SETNUMBER starts. -/
def numberStart (value offset : Nat) : Align → Nat
  | .right => offset
  | .left => offset + ndigits10 value - 1

/-- R172: `while value != 0 and cur != NONE`. The loop runs at most `cur + 1` times (R177), so a digit loop of that width is
it. A zero value makes no request. -/
def expandNumber (value offset : Nat) (al : Align) : List DigitRequest :=
  (digitLoop 10 (numberStart value offset al + 1) (some (numberStart value offset al)) value false).requests

/-- R173: `first <- (PADZERO = DIGIT)`. -/
def firstDigit (c : Params) : Bool :=
  match c.padZero with
  | .digit => true
  | .padOnly => false

/-- R173, R174: the digits, then the pads. -/
def expandPadded (c : Params) (base value offset width : Nat) (pad : Byte) : List DigitRequest :=
  let r := digitLoop base width (some offset) value (firstDigit c)
  r.requests ++ padLoop pad r.width r.cur

/-- R175: the ordered match. Characters are ASCII codes (93_implementation_defined.md G6; log entry 12). -/
def expandChar (c : Params) (p : Nat) (ch : Byte) : List DigitRequest :=
  if charLookupOf c ch ≠ 0 then [.byte p (charLookupOf c ch)]
  else if 0x61 ≤ ch.toNat ∧ ch.toNat ≤ 0x7A then [.digit p (10 + (ch.toNat - 0x61))]
  else if 0x41 ≤ ch.toNat ∧ ch.toNat ≤ 0x5A then [.digit p (10 + (ch.toNat - 0x41))]
  else if 0x30 ≤ ch.toNat ∧ ch.toNat ≤ 0x39 then [.digit p (ch.toNat - 0x30)]
  else []

/-- R176: `for i = 0 to n - 1: SETCHAR offset + i, text[i]`. -/
def expandChars (c : Params) : (text : List Byte) → (offset : Nat) → List DigitRequest
  | [], _ => []
  | ch :: text, offset => expandChar c offset ch ++ expandChars c text (offset + 1)

/-- What one request of an expansion does (42_display_state.md R155, R156). -/
def planRequest (c : Params) (dots : Byte) : DigitRequest → Plan
  | .digit p g => planSetdigit c dots p g
  | .byte p v => planSetbyte c dots p v

/-- 30_encoding.md R98: the requests of an expansion, one after another. -/
def planRequests (c : Params) (dots : Byte) (rs : List DigitRequest) : Plan :=
  Plan.sequence (rs.map (planRequest c dots))

def planSetnumber (c : Params) (dots : Byte) (value offset : Nat) (al : Align) : Plan :=
  planRequests c dots (expandNumber value offset al)

def planSetnumberpad (c : Params) (dots : Byte) (value offset width : Nat) (pad : Byte) : Plan :=
  planRequests c dots (expandPadded c 10 value offset width pad)

def planSetnumberhex (c : Params) (dots : Byte) (value offset width : Nat) (pad : Byte) : Plan :=
  planRequests c dots (expandPadded c 16 value offset width pad)

def planSetchar (c : Params) (dots : Byte) (p : Nat) (ch : Byte) : Plan :=
  planRequests c dots (expandChar c p ch)

def planSetchars (c : Params) (dots : Byte) (text : List Byte) (offset : Nat) : Plan :=
  planRequests c dots (expandChars c text offset)

/-- R172. -/
def execSetnumber (value offset : Nat) (al : Align) (s : State) : Host.Outcome State Fault Refusal :=
  perform (planSetnumber s.cfg s.dots value offset al) s

/-- R173. -/
def execSetnumberpad (value offset width : Nat) (pad : Byte) (s : State) : Host.Outcome State Fault Refusal :=
  perform (planSetnumberpad s.cfg s.dots value offset width pad) s

/-- R174. -/
def execSetnumberhex (value offset width : Nat) (pad : Byte) (s : State) : Host.Outcome State Fault Refusal :=
  perform (planSetnumberhex s.cfg s.dots value offset width pad) s

/-- R175. -/
def execSetchar (p : Nat) (ch : Byte) (s : State) : Host.Outcome State Fault Refusal :=
  perform (planSetchar s.cfg s.dots p ch) s

/-- R176. -/
def execSetchars (text : List Byte) (offset : Nat) (s : State) : Host.Outcome State Fault Refusal :=
  perform (planSetchars s.cfg s.dots text offset) s

end Sys2Proof.Machine
end

