-- ==== Sys2Proof/Machine/WireCommands.lean ====
section
/-! DEFINITION. The five command bytes of the wire (30_encoding.md R86). A command byte is no host request: it travels on
the bus as the head of a frame (R85). The meaning of each is that frame, put on the lines by the block, with the effect
of 20_memory.md R68 on the reference far-end model, which sees it (log entry 9). -/

namespace Sys2Proof.Machine

/-- R85 format FC, R86: `[TX(CMD_DATA_AUTO)]`. -/
def planCmdDataAuto (c : Params) : Plan := ⟨commandMicros c.cmdDataAuto, .nothing, none⟩

/-- R85 format FR, R86: `[TX(CMD_DATA_READKEYS), RX(K0), RX(K1), RX(K2), RX(K3)]`; the bytes received are the mask of
41_command_protocol.md R136. -/
def planCmdDataReadKeys (c : Params) : Plan := ⟨readKeysMicros c, .returnKeys, none⟩

/-- R85 format FC, R86: `[TX(CMD_DATA_FIXED)]`. -/
def planCmdDataFixed (c : Params) : Plan := ⟨commandMicros c.cmdDataFixed, .nothing, none⟩

/-- R85 format FW, R86, R89: `[TX(CMD_ADDR | a), TX(d)]`. -/
def planCmdAddr (c : Params) (a : BitVec 4) (d : Byte) : Plan := ⟨writeFrameMicros (setAddressByte c a) d, .nothing, none⟩

/-- R85 format FC, R86, R90: `[TX(CMD_DISPLAY_ON | l)]`. -/
def planCmdDisplayOn (c : Params) (l : BitVec 3) : Plan := ⟨commandMicros (displayControlByte c l), .nothing, none⟩

/-- R86. -/
def execCmdDataAuto (s : State) : Host.Outcome State Fault Refusal := perform (planCmdDataAuto s.cfg) s

/-- R86. -/
def execCmdDataReadKeys (s : State) : Host.Outcome State Fault Refusal := perform (planCmdDataReadKeys s.cfg) s

/-- R86. -/
def execCmdDataFixed (s : State) : Host.Outcome State Fault Refusal := perform (planCmdDataFixed s.cfg) s

/-- R86, R89. -/
def execCmdAddr (a : BitVec 4) (d : Byte) (s : State) : Host.Outcome State Fault Refusal :=
  perform (planCmdAddr s.cfg a d) s

/-- R86, R90. -/
def execCmdDisplayOn (l : BitVec 3) (s : State) : Host.Outcome State Fault Refusal :=
  perform (planCmdDisplayOn s.cfg l) s

end Sys2Proof.Machine
end

