-- ==== Sys2Proof/Machine/Dispatch.lean ====
section
/-! DEFINITION. One arm per row of spec/opcode_table.json. -/

namespace Sys2Proof.Machine

def exec (i : Instr) (s : State) : Host.Outcome State Fault Refusal :=
  match i with
  | .init => Sys2Proof.Machine.execInit s
  | .fopen => Sys2Proof.Machine.execFopen s
  | .fclose => Sys2Proof.Machine.execFclose s
  | .send b => Sys2Proof.Machine.execSend b s
  | .recv => Sys2Proof.Machine.execRecv s
  | .command c => Sys2Proof.Machine.execCommand c s
  | .wrreg a d => Sys2Proof.Machine.execWrreg a d s
  | .dctl l => Sys2Proof.Machine.execDctl l s
  | .getbuttons => Sys2Proof.Machine.execGetbuttons s
  | .digreg p => Sys2Proof.Machine.execDigreg p s
  | .ledreg p => Sys2Proof.Machine.execLedreg p s
  | .setdots m => Sys2Proof.Machine.execSetdots m s
  | .setbyte p v => Sys2Proof.Machine.execSetbyte p v s
  | .setdigit p g => Sys2Proof.Machine.execSetdigit p g s
  | .clear => Sys2Proof.Machine.execClear s
  | .clearleds => Sys2Proof.Machine.execClearleds s
  | .setleds g r => Sys2Proof.Machine.execSetleds g r s
  | .setled p col => Sys2Proof.Machine.execSetled p col s
  | .setnumber value offset al => Sys2Proof.Machine.execSetnumber value offset al s
  | .setnumberpad value offset width pad => Sys2Proof.Machine.execSetnumberpad value offset width pad s
  | .setnumberhex value offset width pad => Sys2Proof.Machine.execSetnumberhex value offset width pad s
  | .setchar p ch => Sys2Proof.Machine.execSetchar p ch s
  | .setchars text offset => Sys2Proof.Machine.execSetchars text offset s
  | .cmdDataAuto => Sys2Proof.Machine.execCmdDataAuto s
  | .cmdDataReadKeys => Sys2Proof.Machine.execCmdDataReadKeys s
  | .cmdDataFixed => Sys2Proof.Machine.execCmdDataFixed s
  | .cmdAddr a d => Sys2Proof.Machine.execCmdAddr a d s
  | .cmdDisplayOn l => Sys2Proof.Machine.execCmdDisplayOn l s

end Sys2Proof.Machine
end

