-- ==== Sys2Proof/Machine/Program.lean ====
section
/-! DEFINITION. The event list of every operation (10_state.md R30), for the sequencer that is in `BUSY(op, k)` (R31), and
the requests. `exec` runs the same plans whole (R32). -/

namespace Sys2Proof.Machine

/-- 10_state.md R30: what operation `i` does, with the parameters and `DOTS` as they are. No operation changes either
while it runs (R25, R34). -/
def plan (i : Instr) (s : State) : Plan :=
  match i with
  | .init => planInit s.cfg
  | .fopen => planFopen
  | .fclose => planFclose
  | .send b => planSend b
  | .recv => planRecv
  | .command c => planCommand c
  | .wrreg a d => planWrreg s.cfg a d
  | .dctl l => planDctl s.cfg l
  | .getbuttons => planGetbuttons s.cfg
  | .digreg p => planDigreg p
  | .ledreg p => planLedreg p
  | .setdots m => planSetdots m
  | .setbyte p v => planSetbyte s.cfg s.dots p v
  | .setdigit p g => planSetdigit s.cfg s.dots p g
  | .clear => planClear s.cfg
  | .clearleds => planClearleds s.cfg
  | .setleds g r => planSetleds s.cfg g r
  | .setled p col => planSetled s.cfg p col
  | .setnumber value offset al => planSetnumber s.cfg s.dots value offset al
  | .setnumberpad value offset width pad => planSetnumberpad s.cfg s.dots value offset width pad
  | .setnumberhex value offset width pad => planSetnumberhex s.cfg s.dots value offset width pad
  | .setchar p ch => planSetchar s.cfg s.dots p ch
  | .setchars text offset => planSetchars s.cfg s.dots text offset
  | .cmdDataAuto => planCmdDataAuto s.cfg
  | .cmdDataReadKeys => planCmdDataReadKeys s.cfg
  | .cmdDataFixed => planCmdDataFixed s.cfg
  | .cmdAddr a d => planCmdAddr s.cfg a d
  | .cmdDisplayOn l => planCmdDisplayOn s.cfg l

/-- The refusal of a request that does not decode (30_encoding.md R94, R81, 20_memory.md R69). -/
def refusalOf : DecodeError → Refusal
  | .unassignedOp op => .unassignedOp op
  | .operandShape op => .operandShape op
  | .unknownFrame => .unknownFrame

/-- 10_state.md R31: in `BUSY(op, k)`, the next event of `op`. -/
def resume (i : Instr) (k : Nat) (s : State) : Host.Outcome State Fault Refusal := advance (plan i s) i k s

/-- 10_state.md R31: a request for `i` begins, `seq <- BUSY(i, 0)`. -/
def begin (i : Instr) (s : State) : Host.Outcome State Fault Refusal := start (plan i s) i s

end Sys2Proof.Machine
end

