-- ==== Sys2Proof/Machine/Step.lean ====
section
/-! DEFINITION. The step of the machine. With `seq = IDLE` it takes the host's next request and runs the operation whole
(10_state.md R31, R32), or waits where there is none (R38, 60_exceptions.md R203). With `seq = BUSY(op, k)` it performs
event `k` of `op` (R31). `stepEvent` is the same machine read in small steps (R32): a request only begins its operation. -/

namespace Sys2Proof.Machine

def step (s : State) : Host.Outcome State Fault Refusal :=
  match s.seq with
  | .busy i k => resume i k s
  | .idle =>
    match s.requests with
    | [] => .next s
    | r :: rs =>
      match decodeRequest s.cfg r with
      | .ok i => exec i { s with requests := rs }
      | .error e => .refused (refusalOf e)

/-- 10_state.md R31, R32: the small-step reading. -/
def stepEvent (s : State) : Host.Outcome State Fault Refusal :=
  match s.seq with
  | .busy i k => resume i k s
  | .idle =>
    match s.requests with
    | [] => .next s
    | r :: rs =>
      match decodeRequest s.cfg r with
      | .ok i => begin i { s with requests := rs }
      | .error e => .refused (refusalOf e)

/-- The state in which the host's next request is the instruction of the word `w` (log entry 7): the request goes to the
head of the queue, and the sequencer is idle, since only then is a request taken. -/
def State.withFetchWord (s : State) (nbits w : Nat) : State :=
  { s with requests := requestOfWord s.cfg nbits w :: s.requests, seq := .idle }

end Sys2Proof.Machine
end

