-- ==== Sys2Proof/WellFormed.lean ====
section
/-! DEFINITION. The defined domain of every operand (30_encoding.md R81): positions and offsets 0 to 7, register
addresses 0x00 to 0x0F, glyph indices 0 to 15, levels 0 to 7, colours 0 to 3. Bytes, values and widths are legal
whatever they hold. -/

namespace Sys2Proof

/-- 30_encoding.md R81: every operand lies in its defined domain. -/
def Instr.wf : Instr → Bool
  | .init => true
  | .fopen => true
  | .fclose => true
  | .send _ => true
  | .recv => true
  | .command _ => true
  | .wrreg a _ => a ≤ 0x0F
  | .dctl l => l ≤ 7
  | .getbuttons => true
  | .digreg p => p ≤ 7
  | .ledreg p => p ≤ 7
  | .setdots _ => true
  | .setbyte p _ => p ≤ 7
  | .setdigit p g => p ≤ 7 && g ≤ 15
  | .clear => true
  | .clearleds => true
  | .setleds _ _ => true
  | .setled p col => p ≤ 7 && col ≤ 3
  | .setnumber _ offset _ => offset ≤ 7
  | .setnumberpad _ offset _ _ => offset ≤ 7
  | .setnumberhex _ offset _ _ => offset ≤ 7
  | .setchar p _ => p ≤ 7
  | .setchars _ offset => offset ≤ 7
  | .cmdDataAuto => true
  | .cmdDataReadKeys => true
  | .cmdDataFixed => true
  | .cmdAddr _ _ => true
  | .cmdDisplayOn _ => true

/-- 30_encoding.md R81: a `value` is below `2^VALUE_BITS`. No refusal of 60_exceptions.md R192 names a larger one, and the
formatter's rules are over natural numbers of any size (92_eei_decisions.md D21), so the meanings do not ask for it. -/
def Instr.valueFits (c : Params) : Instr → Bool
  | .setnumber value _ _ => value < 2 ^ c.valueBits
  | .setnumberpad value _ _ _ => value < 2 ^ c.valueBits
  | .setnumberhex value _ _ _ => value < 2 ^ c.valueBits
  | .init => true
  | .fopen => true
  | .fclose => true
  | .send _ => true
  | .recv => true
  | .command _ => true
  | .wrreg _ _ => true
  | .dctl _ => true
  | .getbuttons => true
  | .digreg _ => true
  | .ledreg _ => true
  | .setdots _ => true
  | .setbyte _ _ => true
  | .setdigit _ _ => true
  | .clear => true
  | .clearleds => true
  | .setleds _ _ => true
  | .setled _ _ => true
  | .setchar _ _ => true
  | .setchars _ _ => true
  | .cmdDataAuto => true
  | .cmdDataReadKeys => true
  | .cmdDataFixed => true
  | .cmdAddr _ _ => true
  | .cmdDisplayOn _ => true

end Sys2Proof
end

