-- ==== Sys2Proof/Machine/Events.lean ====
section
/-! DEFINITION. The event lists as the spec writes them out (40_bus_transport.md R114, R116, 41_command_protocol.md R131,
R133, R136, R137, 30_encoding.md R83 to R85), in which the statements say what an operation appends to `trace`. They are
written from the rules and not from the micro-operations that the meanings run. -/

namespace Sys2Proof.Machine

/-- 30_encoding.md R83: the transmit bit cell for the bit value `t`. -/
def sendCellEvents (t : Bool) : List Event := [.setOut .clk false, .setOut .dio t, .setOut .clk true]

/-- R114: the 24 events of SEND: cell `i` carries `b[i]`, `i` from 0 to 7. -/
def sendEvents (b : Byte) : List Event := (List.range 8).flatMap (fun i => sendCellEvents (b.getLsbD i))

/-- 30_encoding.md R83: the receive bit cell in which the environment answers `v`. -/
def recvCellEvents (t : Nat) (v : Bool) : List Event :=
  [.setOut .clk false, .delay t, .sample .dio v, .setOut .clk true]

/-- R116: the 36 events of RECV, `t` being `T_SETTLE` and `vs` the eight samples. -/
def recvEvents (t : Nat) (vs : List Bool) : List Event :=
  [.setDir .dio false, .setOut .dio true] ++ vs.flatMap (recvCellEvents t) ++ [.setOut .dio false, .setDir .dio true]

/-- R131: the 26 events of a command frame. -/
def commandEvents (b : Byte) : List Event := [.setOut .stb false] ++ sendEvents b ++ [.setOut .stb true]

/-- 30_encoding.md R85, format FW: the 50 events of a write frame. -/
def writeFrameEvents (b d : Byte) : List Event :=
  [.setOut .stb false] ++ sendEvents b ++ sendEvents d ++ [.setOut .stb true]

/-- R133: the 76 events of WRREG, two frames. -/
def wrregEvents (c : Params) (a : Nat) (d : Byte) : List Event :=
  commandEvents c.cmdDataFixed ++ writeFrameEvents (c.cmdAddr ||| BitVec.ofNat 8 a) d

/-- R137: the six events of the pin configuration. -/
def pinEvents : List Event :=
  [.setOut .stb true, .setOut .clk true, .setOut .dio false, .setDir .stb true, .setDir .clk true, .setDir .dio true]

/-- 42_display_state.md R157, R158: zero written to eight registers, in the order of the positions. -/
def clearEvents (c : Params) (register : Nat → Nat) : List Event :=
  (List.range 8).flatMap (fun p => wrregEvents c (register p) 0x00)

/-- R138: the 1274 events of INIT. -/
def initEvents (c : Params) : List Event :=
  pinEvents ++ commandEvents c.cmdDataAuto ++ commandEvents (c.cmdDisplayOn ||| c.brightness.setWidth 8)
  ++ clearEvents c (fun p => 2 * p) ++ clearEvents c (fun p => 1 + 2 * p)

/-- R136: the 170 events of GETBUTTONS, the four bytes received having the given samples. -/
def readKeysEvents (c : Params) (v0 v1 v2 v3 : List Bool) : List Event :=
  [.setOut .stb false] ++ sendEvents c.cmdDataReadKeys ++ recvEvents c.tSettle v0 ++ recvEvents c.tSettle v1
  ++ recvEvents c.tSettle v2 ++ recvEvents c.tSettle v3 ++ [.setOut .stb true]

/-- The position a request of an expansion writes. -/
def DigitRequest.position : DigitRequest → Nat
  | .digit p _ => p
  | .byte p _ => p

/-- The byte a request of an expansion writes (42_display_state.md R155, R156). -/
def requestByte (c : Params) (dots : Byte) : DigitRequest → Byte
  | .digit p g => digitByte dots p (glyph c g)
  | .byte p v => digitByte dots p v

/-- 43_formatter.md, 30_encoding.md R98: the events of a request of an expansion that is in range. -/
def requestEvents (c : Params) (dots : Byte) (r : DigitRequest) : List Event :=
  wrregEvents c (2 * r.position) (requestByte c dots r)

/-- A request of an expansion whose position and glyph index are in the defined domain (42_display_state.md R153, R156). -/
def DigitRequest.inRange : DigitRequest → Bool
  | .digit p g => p ≤ 7 && g ≤ 15
  | .byte p _ => p ≤ 7

/-- 10_state.md R23: the `j`-th coming sample of `DIO` while it is an input with its pull-up on: what the environment drives,
or 1 where it does not drive the line. -/
def State.answer (s : State) (j : Nat) : Bool :=
  ((s.env[j]?).getD (Config.ext .dio (s.draws + j))).getD true

/-- The eight samples of a RECV that begins `8 * j` samples from now. -/
def State.answers (s : State) (j : Nat) : List Bool := (List.range 8).map (fun i => s.answer (8 * j + i))

/-- 40_bus_transport.md R116: the sum over `i` of `s_i << i`, for the samples of the `j`-th RECV from now. -/
def State.byteReceived (s : State) (j : Nat) : Byte := byteOfBits (s.answers j)

/-- 41_command_protocol.md R136, 20_memory.md R57: `K0 | (K1 << 8) | (K2 << 16) | (K3 << 24)`, for the bytes of the next four
RECVs. -/
def State.maskReceived (s : State) : Mask :=
  (s.byteReceived 0).setWidth 32 ||| ((s.byteReceived 1).setWidth 32 <<< 8)
  ||| ((s.byteReceived 2).setWidth 32 <<< 16) ||| ((s.byteReceived 3).setWidth 32 <<< 24)

/-- A request of an expansion stores its byte in the digit register of its position (42_display_state.md R155, R156). -/
def storeRequest (c : Params) (dots : Byte) (m : List Host.Cell) (r : DigitRequest) : List Host.Cell :=
  Memory.write m (2 * r.position) (requestByte c dots r)

/-- 00_scope.md R12: the event is a `Delay`. -/
def Event.isDelay : Event → Bool
  | .delay _ => true
  | .setDir _ _ => false
  | .setOut _ _ => false
  | .sample _ _ => false

/-- 00_scope.md R12: the event is a `Sample`. -/
def Event.isSample : Event → Bool
  | .sample _ _ => true
  | .setDir _ _ => false
  | .setOut _ _ => false
  | .delay _ => false

/-- 70_reset_and_hazards.md R230: how many bytes an operation receives. -/
def bytesReceived : Instr → Nat
  | .recv => 1
  | .getbuttons => 4
  | .cmdDataReadKeys => 4
  | _ => 0

/-- 10_state.md R31: `n` small steps after an outcome, as long as there is a next state. -/
def runEvents : Nat → Host.Outcome State Fault Refusal → Host.Outcome State Fault Refusal
  | 0, o => o
  | n + 1, .next s => runEvents n (stepEvent s)
  | _ + 1, .fault r => .fault r
  | _ + 1, .refused r => .refused r

/-- 40_bus_transport.md R115: the levels of the data line at the low-to-high transitions of the clock line, all three lines
being outputs, from the levels `clk` and `dio` on. -/
def risingLevels (clk dio : Bool) : List Event → List Bool
  | [] => []
  | .setOut .clk v :: es => (if v && !clk then [dio] else []) ++ risingLevels v dio es
  | .setOut .dio v :: es => risingLevels clk v es
  | .setOut .stb _ :: es => risingLevels clk dio es
  | .setDir _ _ :: es => risingLevels clk dio es
  | .sample _ _ :: es => risingLevels clk dio es
  | .delay _ :: es => risingLevels clk dio es

/-- 40_bus_transport.md R115: the data line is written only while the clock is low. -/
def dataWrittenLow (clk : Bool) : List Event → Bool
  | [] => true
  | .setOut .clk v :: es => dataWrittenLow v es
  | .setOut .dio _ :: es => !clk && dataWrittenLow clk es
  | .setOut .stb _ :: es => dataWrittenLow clk es
  | .setDir _ _ :: es => dataWrittenLow clk es
  | .sample _ _ :: es => dataWrittenLow clk es
  | .delay _ :: es => dataWrittenLow clk es

/-- The requests of a pseudo-operation's expansion (43_formatter.md), none of any other operation. -/
def expansionOf (c : Params) : Instr → List DigitRequest
  | .setnumber value offset al => expandNumber value offset al
  | .setnumberpad value offset width pad => expandPadded c 10 value offset width pad
  | .setnumberhex value offset width pad => expandPadded c 16 value offset width pad
  | .setchar p ch => expandChar c p ch
  | .setchars text offset => expandChars c text offset
  | _ => []

/-- The five pseudo-operations (30_encoding.md R98). -/
def isPseudo : Instr → Bool
  | .setnumber _ _ _ => true
  | .setnumberpad _ _ _ _ => true
  | .setnumberhex _ _ _ _ => true
  | .setchar _ _ => true
  | .setchars _ _ => true
  | _ => false

/-- A request that has a meaning (60_exceptions.md R192): its operands are in their domain, and, for a pseudo-operation,
every write it makes is. -/
def isDefined (c : Params) (i : Instr) : Bool :=
  if isPseudo i then (expansionOf c i).all (·.inRange) else i.wf

/-- 42_display_state.md R153, R156: the refusals a request of an expansion can meet, each naming an operand of it that is out of
its range. Where both are, either will do here (60_exceptions.md R194; log entry 18). -/
def DigitRequest.refusedAs (r : Refusal) : DigitRequest → Prop
  | .digit p g => (7 < p ∧ r = .positionOutOfRange p) ∨ (15 < g ∧ r = .glyphOutOfRange g)
  | .byte p _ => 7 < p ∧ r = .positionOutOfRange p

/-- 60_exceptions.md R192: the refusals an operation can meet while the machine is idle, each naming an operand of it that is out
of its range; for a pseudo-operation an operand of the first of its writes that is out of range (43_formatter.md R176). -/
def refusedAs (c : Params) (r : Refusal) : Instr → Prop
  | .wrreg a _ => 0x0F < a ∧ r = .addressOutOfRange a
  | .dctl l => 7 < l ∧ r = .levelOutOfRange l
  | .digreg p => 7 < p ∧ r = .positionOutOfRange p
  | .ledreg p => 7 < p ∧ r = .positionOutOfRange p
  | .setbyte p _ => 7 < p ∧ r = .positionOutOfRange p
  | .setdigit p g => (7 < p ∧ r = .positionOutOfRange p) ∨ (15 < g ∧ r = .glyphOutOfRange g)
  | .setled p col => (7 < p ∧ r = .positionOutOfRange p) ∨ (3 < col ∧ r = .colourOutOfRange col)
  | i => ∃ (before after : List DigitRequest) (q : DigitRequest), expansionOf c i = before ++ q :: after ∧
      before.all (·.inRange) = true ∧ q.refusedAs r

end Sys2Proof.Machine
end

