-- ==== Sys2Proof/Safety.lean ====
section
/-! DEFINITION. What counts as a good state and a good run, in the terms the statements use: the idle configuration
(10_state.md R37), a bus that is ready for a frame the reference far-end model follows (20_memory.md R66 to R68), and the
invariant of the machine. -/

namespace Sys2Proof.Machine

/-- 10_state.md R37: the GPIO bits of the idle configuration, whatever level the data line holds. -/
abbrev Gpio.idle (g : Gpio) : Prop :=
  g.dir = ⟨true, true, true⟩ ∧ g.out.stb = true ∧ g.out.clk = true

/-- 10_state.md R37: the idle configuration, the sequencer idle. -/
abbrev State.idleConfig (s : State) : Prop := s.seq = .idle ∧ s.gpio.idle

/-- The bus is idle, the parameters are legal (92_eei_decisions.md D2), and the reference far-end model follows the bus,
no frame being open. -/
abbrev State.ready (s : State) : Prop :=
  s.idleConfig ∧ s.cfg.legal ∧ s.far.status = .following ∧ s.far.frame = none

/-- 20_memory.md R67, R69, 10_state.md R39: a far end that the reference model does not follow has nothing known about it. -/
abbrev FarEnd.knowsNothing (f : FarEnd) : Prop :=
  f.mem = [] ∧ f.ctl = none ∧ f.keys = none ∧ f.announced = false ∧ f.frame = none

/-- The invariant of the far end: its registers in canonical form at addresses that exist (20_memory.md R52), and nothing
known where the model does not follow (R69). -/
abbrev FarEnd.inv (f : FarEnd) : Prop :=
  Memory.wf f.mem = true ∧ (f.status ≠ .following → f.knowsNothing)

/-- Where the sequencer may stand (10_state.md R30, R31): idle with no working register in use (R29), or at an event of the
operation, or at the point where the operation is refused. -/
abbrev State.seqInv (s : State) : Prop :=
  match s.seq with
  | .idle => s.work = Work.empty
  | .busy i k => k < (plan i s).micros.length ∨ (k = (plan i s).micros.length ∧ (plan i s).stop ≠ none)

/-- The invariant of the machine: legal parameters, a sequencer position that exists, a far end in canonical form, and an
open frame only while the strobe is low (20_memory.md R66). -/
abbrev State.inv (s : State) : Prop :=
  s.cfg.legal ∧ s.seqInv ∧ s.far.inv ∧ (s.far.frame ≠ none → s.gpio.out.stb = false)

/-- The composite operations of 10_state.md R37: those that close every frame they open. -/
def isComposite : Instr → Bool
  | .init => true
  | .fopen => false
  | .fclose => false
  | .send _ => false
  | .recv => false
  | .command _ => true
  | .wrreg _ _ => true
  | .dctl _ => true
  | .getbuttons => true
  | .digreg _ => true
  | .ledreg _ => true
  | .setdots _ => true
  | .setbyte _ _ => true
  | .setdigit _ _ => true
  | .clear => true
  | .clearleds => true
  | .setleds _ _ => true
  | .setled _ _ => true
  | .setnumber _ _ _ => true
  | .setnumberpad _ _ _ _ => true
  | .setnumberhex _ _ _ _ => true
  | .setchar _ _ => true
  | .setchars _ _ => true
  | .cmdDataAuto => true
  | .cmdDataReadKeys => true
  | .cmdDataFixed => true
  | .cmdAddr _ _ => true
  | .cmdDisplayOn _ => true

/-- What an operation puts on the lines and leaves behind: the state after it differs from the state before only in the
trace, the GPIO levels and directions, the result, the environment's answers used up, and the far end. (The working registers
hold no value between operations, 10_state.md R29, so nothing is said of them.) -/
abbrev State.onlyBus (s t : State) : Prop :=
  t.cfg = s.cfg ∧ t.dots = s.dots ∧ t.seq = .idle ∧ t.requests = s.requests ∧
  t.gpio.restDir = s.gpio.restDir ∧ t.gpio.restOut = s.gpio.restOut

/-- No sample was taken: the environment's coming answers are what they were. -/
abbrev State.noSample (s t : State) : Prop := t.env = s.env ∧ t.draws = s.draws

/-- A frame has written `v` to a register of the DISPLAY space, and that is what it holds. -/
abbrev State.registerHolds (s : State) (a : Nat) (v : Byte) : Prop :=
  Memory.read s.far.mem a = some v ∧ s.register a = some v

/-- Every register of the DISPLAY space reads as before but those of `stored` (20_memory.md R50): what frames have written is
the same, and, where the reference model follows the bus, so is what a register holds that no frame has written (a
free value, log entry 6). -/
abbrev State.sameMemoryBut (stored : Nat → Prop) (s t : State) : Prop :=
  ∀ a : Nat, ¬ stored a → Memory.read t.far.mem a = Memory.read s.far.mem a ∧
    (s.far.status = .following → t.register a = s.register a)

/-- Every register of the DISPLAY space reads as before. -/
abbrev State.sameMemory (s t : State) : Prop := s.sameMemoryBut (fun _ => False) t

/-- The far end's display control and key bytes are what they were: what frames have set is the same, and, where the reference
model follows the bus, so is what they hold that no frame has set (a free value, log entry 6). -/
abbrev State.sameControl (s t : State) : Prop :=
  t.far.ctl = s.far.ctl ∧ t.far.keys = s.far.keys ∧
  (s.far.status = .following → t.control = s.control ∧ t.keyBytes = s.keyBytes)

/-- A frame has set the display control to on at level `l`, and that is what it holds. -/
abbrev State.controlHolds (s : State) (l : BitVec 3) : Prop := s.far.ctl = some l ∧ s.control = ⟨true, l⟩

/-- A read-keys frame has taken the key bytes `k`, and those are what the far end's hold. -/
abbrev State.keysHold (s : State) (k : KeyBytes) : Prop := s.far.keys = some k ∧ s.keyBytes = k

end Sys2Proof.Machine
end

