-- ==== Sys2Proof/Certificates/Slice0/Obligations.lean ====
section
/-! DEFINITION. The statements about the machine. A statement over every state holds for every value of the parameters too,
since a state carries them (log entry 4). Where a statement rests on a decision or an inference that the spec marks as its own
(92_eei_decisions.md D<n>), or on a choice of the model (a log entry), its docstring says which. All that is said of the far
end is said of the spec's own reference model (D17), in which a register that no frame has written keeps one free value while
the model follows the bus (log entry 6). -/

open Sys2Proof Sys2Proof.Machine

/-! Encoding and fetching. -/

/-- 30_encoding.md: decoding the encoding of any instruction gives it back, for every legal value of the parameters. The
host codes and the operand tuples are the spec's decision D1; that a command byte is a request is the model's choice (log
entry 9). -/
def Obligations.DecodeEncodeAgree : Prop :=
  ∀ (c : Params) (i : Instr), c.legal → decodeRequest c (encode c i) = .ok i

/-- 30_encoding.md R82, R86: a few words of the table (decision D1). That a word stands for an operation with operands of
zeros is the model's choice (log entry 19); the command bytes are at their default values (log entry 5). -/
def Obligations.TableWordsDecode : Prop :=
  decodeTableWord 8 0x00 = some .init ∧ decodeTableWord 8 0x04 = some .recv ∧
  decodeTableWord 8 0x08 = some .getbuttons ∧ decodeTableWord 8 0x11 = some (.ledreg 0) ∧
  decodeTableWord 8 0x24 = some .clearleds ∧ decodeTableWord 8 0x34 = some (.setchars [] 0) ∧
  decodeTableWord 8 0x42 = some .cmdDataReadKeys ∧ decodeTableWord 8 0xC5 = some (.cmdAddr 5 0) ∧
  decodeTableWord 8 0x8F = some (.cmdDisplayOn 7) ∧ decodeTableWord 8 0x09 = none

/-- 10_state.md R31, R32: when the next request decodes to an instruction, the step of an idle machine is that instruction,
the request having been taken from the queue (log entry 7) and the operation taken as one big step (decision D25). -/
def Obligations.StepRunsTheRequest : Prop :=
  ∀ (s : State) (r : Request) (rs : List Request) (i : Instr), s.seq = .idle → s.requests = r :: rs →
    decodeRequest s.cfg r = .ok i → step s = exec i { s with requests := rs }

/-- 10_state.md R38, 60_exceptions.md R203: an idle machine without a request (log entry 7) waits and nothing
changes. -/
def Obligations.IdleMachineWaits : Prop :=
  ∀ s : State, s.seq = .idle → s.requests = [] → step s = .next s

/-- 10_state.md R31: in `BUSY(op, k)` a step performs event `k` alone; after it `seq` is `BUSY(op, k+1)`, or `IDLE` where it was
the last, when the operation ends and its result is returned. -/
def Obligations.BusyStepPerformsOneEvent : Prop :=
  ∀ (s : State) (i : Instr) (k : Nat) (m : Micro), s.seq = .busy i k → (plan i s).stop = none →
    (plan i s).micros[k]? = some m → ∃ (e : Event) (t : State), step s = .next t ∧ t.trace = s.trace ++ [e] ∧
      t.gpio = s.gpio.apply e ∧
      (k + 1 < (plan i s).micros.length → t = { m.run s with seq := .busy i (k + 1) } ∧ t.dots = s.dots ∧
        t.result = s.result) ∧
      (k + 1 = (plan i s).micros.length → t = (m.run s).complete (plan i s).finish ∧ t.seq = .idle)

/-- 10_state.md R32: the small-step reading and the big-step reading agree: the operation begun by its request and performed
event by event ends in the very state that `exec` answers. -/
def Obligations.SmallStepsAgreeWithBigStep : Prop :=
  ∀ (i : Instr) (s t : State), exec i s = .next t →
    runEvents (plan i s).micros.length (begin i s) = .next t

/-! Refusals and the absence of faults. -/

/-- 60_exceptions.md R192: the refusals (the spec's decisions D4, D24, D25); which name a refusal has is the model's. -/
def Obligations.RefusalsAreTheListed : Prop :=
  (∀ (s : State) (p : Nat) (v : Byte) (g col : Nat), s.seq = .idle → 7 < p →
    exec (.digreg p) s = .refused (.positionOutOfRange p) ∧ exec (.ledreg p) s = .refused (.positionOutOfRange p) ∧
    exec (.setbyte p v) s = .refused (.positionOutOfRange p) ∧
    exec (.setdigit p g) s = .refused (.positionOutOfRange p) ∧
    exec (.setled p col) s = .refused (.positionOutOfRange p)) ∧
  (∀ (s : State) (i : Instr), s.seq = .idle → isPseudo i = true →
    (expansionOf s.cfg i).any (fun r => !r.inRange) = true → ∃ r, exec i s = .refused r) ∧
  (∀ (s : State) (a : Nat) (d : Byte), s.seq = .idle → 0x0F < a →
    exec (.wrreg a d) s = .refused (.addressOutOfRange a)) ∧
  (∀ (s : State) (p g : Nat), s.seq = .idle → p ≤ 7 → 15 < g →
    exec (.setdigit p g) s = .refused (.glyphOutOfRange g)) ∧
  (∀ (s : State) (l : Nat), s.seq = .idle → 7 < l → exec (.dctl l) s = .refused (.levelOutOfRange l)) ∧
  (∀ (s : State) (p col : Nat), s.seq = .idle → p ≤ 7 → 3 < col →
    exec (.setled p col) s = .refused (.colourOutOfRange col)) ∧
  (∀ (s : State) (op : Byte) (args : List Operand) (rs : List Request), s.seq = .idle →
    s.requests = .host op args :: rs → (∀ o : HostOp, hostCode o ≠ op) → step s = .refused (.unassignedOp op)) ∧
  (∀ (s : State) (i : Instr), s.seq ≠ .idle → exec i s = .refused .requestWhileBusy)

/-- 60_exceptions.md R192, read the other way: every request that the list does not name has a meaning, so every instruction
completes on every operand of its domain (decision D4; for the commands of the wire log entry 9). -/
def Obligations.DefinedRequestsComplete : Prop :=
  ∀ (i : Instr) (s : State), s.seq = .idle → isDefined s.cfg i = true → ∃ t, exec i s = .next t

/-- 60_exceptions.md R190, R192: there is no exception and no cause of a refusal beside the listed ones (decisions D4, D24, D25).
An operation answers a next state, or it is refused because the machine is busy, or because an operand is out of its range, in
which case the refusal names such an operand of it, for a pseudo-operation one of the first of its writes that is out of range
(which of two such operands is named is left open here, log entry 18). A step stops in no other case but a request that does
not decode (log entry 18 for its two names beside the unassigned code). -/
def Obligations.OnlyListedCausesRefuse : Prop :=
  (∀ (i : Instr) (s : State), (∃ t, exec i s = .next t) ∨ ∃ r, exec i s = .refused r ∧
    ((s.seq ≠ .idle ∧ r = .requestWhileBusy) ∨
     (s.seq = .idle ∧ isDefined s.cfg i = false ∧ refusedAs s.cfg r i))) ∧
  (∀ s : State, (∃ t, step s = .next t) ∨ ∃ r, step s = .refused r ∧
    ((∃ (q : Request) (qs : List Request), s.seq = .idle ∧ s.requests = q :: qs ∧
      ((∃ e, decodeRequest s.cfg q = .error e ∧ r = refusalOf e) ∨
       ∃ i, decodeRequest s.cfg q = .ok i ∧ isDefined s.cfg i = false ∧ refusedAs s.cfg r i)) ∨
     ∃ i k, s.seq = .busy i k ∧ isDefined s.cfg i = false ∧ refusedAs s.cfg r i))

/-! Pins (10_state.md). -/

/-- 10_state.md R22: a write is to one bit of one register and leaves every other bit, also those of no line of the block; it
is recorded whatever the bit held, and changes nothing where it held that value; the other events write no bit; and every
step of an operation is one event (decisions D5 and D9). -/
def Obligations.EventWritesOneBit : Prop :=
  (∀ (s : State) (l : Line) (v : Bool),
    ((s.emit (.setDir l v)).gpio.dir.get l = v ∧ (s.emit (.setDir l v)).gpio.out = s.gpio.out ∧
      (∀ m, m ≠ l → (s.emit (.setDir l v)).gpio.dir.get m = s.gpio.dir.get m) ∧
      (s.emit (.setDir l v)).gpio.restDir = s.gpio.restDir ∧ (s.emit (.setDir l v)).gpio.restOut = s.gpio.restOut ∧
      (s.gpio.dir.get l = v → (s.emit (.setDir l v)).gpio = s.gpio) ∧
      (s.emit (.setDir l v)).trace = s.trace ++ [.setDir l v]) ∧
    ((s.emit (.setOut l v)).gpio.out.get l = v ∧ (s.emit (.setOut l v)).gpio.dir = s.gpio.dir ∧
      (∀ m, m ≠ l → (s.emit (.setOut l v)).gpio.out.get m = s.gpio.out.get m) ∧
      (s.emit (.setOut l v)).gpio.restDir = s.gpio.restDir ∧ (s.emit (.setOut l v)).gpio.restOut = s.gpio.restOut ∧
      (s.gpio.out.get l = v → (s.emit (.setOut l v)).gpio = s.gpio) ∧
      (s.emit (.setOut l v)).trace = s.trace ++ [.setOut l v]) ∧
    (s.emit (.sample l v)).gpio = s.gpio ∧ ∀ t, (s.emit (.delay t)).gpio = s.gpio) ∧
  (∀ (s : State) (m : Micro), ∃ e, (m.run s).gpio = s.gpio.apply e ∧ (m.run s).trace = s.trace ++ [e])

/-- 10_state.md R22, 60_exceptions.md R200: the bits of the port outside the three lines are never changed. -/
def Obligations.ForeignPortBitsKept : Prop :=
  ∀ (s t : State) (n : Nat), step s = .next t → lineAt s.cfg n = none →
    t.dirBit n = s.dirBit n ∧ t.outBit n = s.outBit n

/-- 10_state.md R23: the level of a line, in each of its four cases (decision D5 for the pull-up; the environment is a
script, then free values: log entry 8; the moment DIO takes the next of them: log entry 22). That an output has its output bit as level also where the environment drives the line
too is the first case of R23 taken literally, entry U7 leaving it open: the model's choice (log entry 13). -/
def Obligations.LevelOfLine : Prop :=
  ∀ (s : State) (l : Line),
    (s.gpio.dir.get l = true → s.level l = s.gpio.out.get l) ∧
    (∀ v, s.gpio.dir.get l = false → s.drive l = some v → s.level l = v) ∧
    (s.gpio.dir.get l = false → s.drive l = none → s.gpio.out.get l = true → s.level l = true) ∧
    (s.gpio.dir.get l = false → s.drive l = none → s.gpio.out.get l = false → s.level l = Config.floating l s.draws)

/-- 10_state.md R24, 41_command_protocol.md R139: strobe and clock, once outputs, stay outputs: no step releases them. -/
def Obligations.StrobeAndClockNeverReleased : Prop :=
  ∀ s t : State, step s = .next t →
    (s.gpio.dir.stb = true → t.gpio.dir.stb = true) ∧ (s.gpio.dir.clk = true → t.gpio.dir.clk = true)

/-! Bus Transport (40_bus_transport.md). -/

/-- R112: FOPEN. While `STB` is no output its level does not follow the write: it is the model's free value or script (log
entry 8), and an output's level is its output bit (log entry 13). The far end's new frame is R66, the reference model (D17). -/
def Obligations.FopenLowersStrobe : Prop :=
  ∀ s : State, s.seq = .idle → ∃ t, exec .fopen s = .next t ∧ t.trace = s.trace ++ [.setOut .stb false] ∧
    t.gpio = { s.gpio with out := { s.gpio.out with stb := false } } ∧ t.result = none ∧ s.onlyBus t ∧ s.noSample t ∧
    s.sameMemory t ∧ s.sameControl t ∧ (s.gpio.out.stb = false → t.gpio = s.gpio ∧ t.far = s.far) ∧
    (s.far.status = .following → s.gpio.out.stb = true → t.far.frame = some ⟨[], []⟩) ∧
    (s.gpio.dir.stb = true → t.level .stb = false) ∧
    (s.gpio.dir.stb = false → t.level .stb = (t.drive .stb).getD (Config.floating .stb t.draws)) ∧
    encode s.cfg .fopen = .host 0x01 []

/-- R113: FCLOSE. A frame in progress is complete, with the effect of R66 to R69, the reference model (D17). The register it
may store to is the one the cursor of that frame points at (log entry 20). -/
def Obligations.FcloseRaisesStrobe : Prop :=
  ∀ s : State, s.seq = .idle → ∃ t, exec .fclose s = .next t ∧ t.trace = s.trace ++ [.setOut .stb true] ∧
    t.gpio = { s.gpio with out := { s.gpio.out with stb := true } } ∧ t.result = none ∧ s.onlyBus t ∧ s.noSample t ∧
    (s.gpio.out.stb = true → t.gpio = s.gpio) ∧ (s.far.frame = none → t.far = s.far) ∧
    (∀ fr, s.far.status = .following → s.far.frame = some fr → t.far = s.far.close s.cfg fr) ∧
    (s.far.status = .following → t.far.frame = none) ∧ encode s.cfg .fclose = .host 0x02 [] ∧
    (t.far.status = s.far.status →
      s.sameMemoryBut (fun a => ∃ c : BitVec 4, s.far.cursor s.cfg = some c ∧ a = c.toNat) t)

/-- R114: SEND. Whether the clock is low or high on entry, eight rising edges occur. That no register of the far end changes is
said of the reference model (D17), while it is followed (log entry 6). -/
def Obligations.SendTransmitsByte : Prop :=
  ∀ (b : Byte) (s : State), s.seq = .idle → ∃ t, exec (.send b) s = .next t ∧ t.trace = s.trace ++ sendEvents b ∧
    (sendEvents b).length = 24 ∧
    t.gpio = { s.gpio with out := ⟨s.gpio.out.stb, true, b.getLsbD 7⟩ } ∧ t.result = none ∧ s.onlyBus t ∧
    s.noSample t ∧ s.sameMemory t ∧ s.sameControl t ∧ (s.far.frame = none → t.far = s.far) ∧
    (∀ clk dio, (risingLevels clk dio (sendEvents b)).length = 8) ∧ encode s.cfg (.send b) = .host 0x03 [.byte b]

/-- R115 (an inference of the spec): with the clock high on entry and clock and data outputs, of the events that SEND appends: the
clock rises exactly eight times, at the `i`-th rise the data line has the level of bit `i`, the far end that samples there
recovers the byte, and the data line is written only while the clock is low; both lines stay outputs. -/
def Obligations.SendShowsByteOnLines : Prop :=
  ∀ (b : Byte) (s t : State) (es : List Event), s.gpio.dir.clk = true → s.gpio.dir.dio = true → s.gpio.out.clk = true →
    exec (.send b) s = .next t → t.trace = s.trace ++ es →
    (risingLevels s.gpio.out.clk s.gpio.out.dio es).length = 8 ∧
    (∀ i, i < 8 → (risingLevels s.gpio.out.clk s.gpio.out.dio es)[i]? = some (b.getLsbD i)) ∧
    byteOfBits (risingLevels s.gpio.out.clk s.gpio.out.dio es) = b ∧
    dataWrittenLow s.gpio.out.clk es = true ∧ (∀ e ∈ es, ∀ (l : Line) (d : Bool), e ≠ .setDir l d) ∧
    t.gpio.dir.clk = true ∧ t.gpio.dir.dio = true

/-- R116: RECV (the order of the direction events is decision D6). The result's bit `i` is the `i`-th sample (log entry 8). -/
def Obligations.RecvReceivesByte : Prop :=
  ∀ s : State, s.seq = .idle → ∃ (t : State) (b : Byte), exec .recv s = .next t ∧
    t.trace = s.trace ++ recvEvents s.cfg.tSettle (s.answers 0) ∧
    (recvEvents s.cfg.tSettle (s.answers 0)).length = 36 ∧ t.result = some (.byte b) ∧
    (∀ i, i < 8 → b.getLsbD i = s.answer i) ∧
    t.gpio = { s.gpio with dir := { s.gpio.dir with dio := true }, out := ⟨s.gpio.out.stb, true, false⟩ } ∧
    s.onlyBus t ∧ t.env = s.env.drop 8 ∧ t.draws = s.draws + 8 ∧ s.sameMemory t ∧ s.sameControl t

/-- R116 corner case (d), an inference of the spec: with a line that nothing drives the pull-up makes the result 0xFF. -/
def Obligations.RecvUndrivenIsAllOnes : Prop :=
  ∀ s t : State, (∀ j, j < 8 → s.env[j]? = some none) → exec .recv s = .next t → t.result = some (.byte 0xFF)

/-- 20_memory.md R66: in an open frame a SEND delivers its byte and a RECV takes one, as items of the frame. -/
def Obligations.FrameGrowsByItems : Prop :=
  ∀ (s t : State) (items : List Item), s.far.status = .following → s.far.frame = some ⟨items, []⟩ →
    (∀ b, s.gpio.dir.dio = true → exec (.send b) s = .next t → t.far.frame = some ⟨items ++ [.tx b], []⟩) ∧
    (∀ b, exec .recv s = .next t → t.result = some (.byte b) → t.far.frame = some ⟨items ++ [.rx b], []⟩)

/-! Command Protocol (41_command_protocol.md). -/

/-- R131: COMMAND. A byte that is no command is sent all the same; the reference far end refuses its frame
(a frame of its own is decision D8). -/
def Obligations.CommandSendsOneFrame : Prop :=
  ∀ (b : Byte) (s : State), s.seq = .idle → ∃ t, exec (.command b) s = .next t ∧
    t.trace = s.trace ++ commandEvents b ∧ (commandEvents b).length = 26 ∧
    t.gpio = { s.gpio with out := ⟨true, true, b.getLsbD 7⟩ } ∧ t.result = none ∧ s.onlyBus t ∧ s.noSample t ∧
    (s.ready → t.far = s.far.receive s.cfg [.tx b] ∧ (wireOpOf s.cfg b = none → t.far.status = .refused) ∧
      (t.far.status = .following → s.sameMemory t)) ∧
    encode s.cfg (.command b) = .host 0x05 [.byte b]

/-- R132, R133: WRREG is two frames, always both, whatever came before. -/
def Obligations.WrregSendsTwoFrames : Prop :=
  ∀ (a : Nat) (d : Byte) (s : State), s.seq = .idle → a ≤ 0x0F → ∃ t, exec (.wrreg a d) s = .next t ∧
    t.trace = s.trace ++ (commandEvents s.cfg.cmdDataFixed ++
      writeFrameEvents (s.cfg.cmdAddr ||| BitVec.ofNat 8 a) d) ∧
    (wrregEvents s.cfg a d).length = 76 ∧
    t.gpio = { s.gpio with out := ⟨true, true, d.getLsbD 7⟩ } ∧ t.result = none ∧ s.onlyBus t ∧ s.noSample t

/-- R133, 20_memory.md R68: on a ready bus the net effect of WRREG, and of the operations that are one WRREG
(42_display_state.md R155, R156, R160), is `MemWrite(a, 1, v)` and nothing else (the reference model is decision D17). -/
def Obligations.SingleWritesStoreOneRegister : Prop :=
  ∀ (s : State) (i : Instr) (a : Nat) (v : Byte), s.ready →
    ((i = .wrreg a v ∧ a ≤ 0x0F) ∨
     (∃ p u, i = .setbyte p u ∧ p ≤ 7 ∧ a = 2 * p ∧ v = digitByte s.dots p u) ∨
     (∃ p g, i = .setdigit p g ∧ p ≤ 7 ∧ g ≤ 15 ∧ a = 2 * p ∧ v = digitByte s.dots p (glyph s.cfg g)) ∨
     (∃ p col, i = .setled p col ∧ p ≤ 7 ∧ col ≤ 3 ∧ a = 1 + 2 * p ∧
       v = ledByte s.cfg (colourGreen col) (colourRed col))) →
    ∃ t, exec i s = .next t ∧ t.registerHolds a v ∧ s.sameMemoryBut (fun b => b = a) t ∧
      s.sameControl t ∧ t.ready

/-- R134: DCTL, offered to the host by decision D11. -/
def Obligations.DctlSendsDisplayControl : Prop :=
  ∀ (l : Nat) (s : State), s.seq = .idle → l ≤ 7 → ∃ t, exec (.dctl l) s = .next t ∧
    t.trace = s.trace ++ commandEvents (s.cfg.cmdDisplayOn ||| BitVec.ofNat 8 l) ∧
    t.gpio = { s.gpio with out := ⟨true, true, (s.cfg.cmdDisplayOn ||| BitVec.ofNat 8 l).getLsbD 7⟩ } ∧
    t.result = none ∧ s.onlyBus t ∧ s.noSample t ∧
    (s.ready → t.controlHolds (BitVec.ofNat 3 l) ∧ s.sameMemory t ∧ t.far.keys = s.far.keys ∧
      t.keyBytes = s.keyBytes ∧ t.ready)

/-- R136: GETBUTTONS. The result's bit `8 * j + i` is the `i`-th sample of the `j`-th byte. -/
def Obligations.GetbuttonsReadsMask : Prop :=
  ∀ s : State, s.seq = .idle → ∃ (t : State) (m : Mask), exec .getbuttons s = .next t ∧
    t.trace = s.trace ++
      readKeysEvents s.cfg (s.answers 0) (s.answers 1) (s.answers 2) (s.answers 3) ∧
    (readKeysEvents s.cfg (s.answers 0) (s.answers 1) (s.answers 2) (s.answers 3)).length = 170 ∧
    t.result = some (.mask m) ∧ (∀ n, n < 32 → m.getLsbD n = s.answer n) ∧
    t.gpio = { s.gpio with dir := { s.gpio.dir with dio := true }, out := ⟨true, true, false⟩ } ∧
    s.onlyBus t ∧ t.env = s.env.drop 32 ∧ t.draws = s.draws + 32 ∧
    (s.ready → s.sameMemory t ∧ t.far.ctl = s.far.ctl ∧ t.control = s.control ∧ t.ready ∧
      ∃ k : KeyBytes, t.keysHold k ∧ m = k.k3 ++ k.k2 ++ k.k1 ++ k.k0)

/-- R136 corner case (e): the mask depends on the samples alone, not on `DOTS`, not on the far end, not on anything sent. -/
def Obligations.ButtonMaskIndependentOfWrites : Prop :=
  ∀ s s' t t' : State, s.env = s'.env → s.draws = s'.draws → exec .getbuttons s = .next t →
    exec .getbuttons s' = .next t' → t.result = t'.result

/-- R137, R138: INIT, from any GPIO values, before and after a first INIT (the order of its writes is decisions D7, D14). -/
def Obligations.InitConfiguresBlock : Prop :=
  ∀ s : State, s.seq = .idle → ∃ t, exec .init s = .next t ∧ t.trace = s.trace ++ initEvents s.cfg ∧
    (initEvents s.cfg).length = 1274 ∧ t.gpio.dir = ⟨true, true, true⟩ ∧ t.gpio.out = ⟨true, true, false⟩ ∧
    t.result = none ∧ s.onlyBus t ∧ s.noSample t

/-- R138, 70_reset_and_hazards.md R213: after INIT the reference far end has all sixteen registers zero and the display on at
`BRIGHTNESS`, be it the first INIT or a later one. -/
def Obligations.InitClearsFarEnd : Prop :=
  ∀ s : State, s.seq = .idle → s.cfg.legal →
    (s.far.status = .unspecified ∨ (s.far.status = .following ∧ s.far.frame = none)) →
    ∃ t, exec .init s = .next t ∧ (∀ a, a < 16 → t.registerHolds a 0x00) ∧
      t.controlHolds s.cfg.brightness ∧ t.ready

/-- 70_reset_and_hazards.md R211: before the first INIT no operation but INIT has a specified effect on the far end: nothing
known of it changes (log entry 11). -/
def Obligations.FarEndUnspecifiedBeforeInit : Prop :=
  ∀ (i : Instr) (s t : State), s.far.status = .unspecified → i ≠ .init → exec i s = .next t → t.far = s.far

/-! Register Map and Display State (42_display_state.md). -/

/-- R151, R152: DIGREG and LEDREG return the address, without an event; a position above 7 is refused (R153), under a name
that the model gives. -/
def Obligations.RegisterMapReturnsAddress : Prop :=
  ∀ (p : Nat) (s : State), s.seq = .idle →
    (p ≤ 7 →
      (∃ t, exec (.digreg p) s = .next t ∧ t.result = some (.address (2 * p)) ∧ t.trace = s.trace ∧ t.gpio = s.gpio ∧
        s.onlyBus t ∧ s.noSample t ∧ t.far = s.far) ∧
      (∃ t, exec (.ledreg p) s = .next t ∧ t.result = some (.address (1 + 2 * p)) ∧ t.trace = s.trace ∧
        t.gpio = s.gpio ∧ s.onlyBus t ∧ s.noSample t ∧ t.far = s.far)) ∧
    (7 < p → exec (.digreg p) s = .refused (.positionOutOfRange p) ∧
      exec (.ledreg p) s = .refused (.positionOutOfRange p)) ∧
    2 * p % 2 = 0 ∧ (1 + 2 * p) % 2 = 1 ∧
    encode s.cfg (.digreg p) = .host 0x10 [.nat p] ∧ encode s.cfg (.ledreg p) = .host 0x11 [.nat p]

/-- R153: the sixteen addresses are distinct, even and odd, strictly increasing, and exactly 0x00 to 0x0F. -/
def Obligations.RegisterMapCoversAddresses : Prop :=
  (∀ p q : Nat, p < q → digitRegister p < digitRegister q ∧ ledRegister p < ledRegister q) ∧
  (∀ p q : Nat, digitRegister p ≠ ledRegister q ∧ digitRegister p % 2 = 0 ∧ ledRegister p % 2 = 1) ∧
  (∀ a : Nat, a ≤ 0x0F ↔ ∃ p, p ≤ 7 ∧ (a = digitRegister p ∨ a = ledRegister p)) ∧
  (∀ p : Nat, digitRegister p / 2 = p ∧ ledRegister p / 2 = p)

/-- R154: SETDOTS replaces the whole mask and does nothing else, and no other operation writes a bit of it; a byte written later has its point as the new mask says, so
a zero mask and a rewrite remove it. -/
def Obligations.SetdotsReplacesMask : Prop :=
  ∀ (m : Byte) (s : State), s.seq = .idle → ∃ t, exec (.setdots m) s = .next t ∧ t.dots = m ∧ t.trace = s.trace ∧
    t.gpio = s.gpio ∧ t.far = s.far ∧ t.result = none ∧ t.cfg = s.cfg ∧ t.requests = s.requests ∧ s.noSample t ∧
    t.seq = .idle ∧ encode s.cfg (.setdots m) = .host 0x20 [.byte m] ∧
    (∀ (p : Nat) (v : Byte) (u : State), p ≤ 7 → exec (.setbyte p v) t = .next u →
      u.trace = s.trace ++ wrregEvents s.cfg (2 * p) (if m.getLsbD p then v ||| 0x80 else v)) ∧
    ∀ (i : Instr) (u : State), (∀ n, i ≠ .setdots n) → exec i t = .next u → u.dots = m

/-- R155: SETBYTE: one WRREG of `v` with the decimal point added where the dot mask asks for it; refused above position 7. -/
def Obligations.SetbyteAddsPoint : Prop :=
  ∀ (p : Nat) (v : Byte) (s : State), s.seq = .idle →
    (p ≤ 7 → ∃ (t : State) (u : Byte),
      exec (.setbyte p v) s = .next t ∧ t.trace = s.trace ++ wrregEvents s.cfg (2 * p) u ∧
      (wrregEvents s.cfg (2 * p) u).length = 76 ∧
      (∀ i, i < 7 → u.getLsbD i = v.getLsbD i) ∧ u.getLsbD 7 = (v.getLsbD 7 || s.dots.getLsbD p) ∧
      t.gpio = { s.gpio with out := ⟨true, true, u.getLsbD 7⟩ } ∧ t.result = none ∧ s.onlyBus t ∧ s.noSample t) ∧
    (7 < p → exec (.setbyte p v) s = .refused (.positionOutOfRange p)) ∧
    encode s.cfg (.setbyte p v) = .host 0x21 [.nat p, .byte v]

/-- R156: SETDIGIT is SETBYTE of the glyph; a position above 7 and a glyph index above 15 are refused (decisions D4, D24). The
refusals' names, and that the position is named where both are out of range, are the model's choice (log entry 18). -/
def Obligations.SetdigitWritesGlyph : Prop :=
  ∀ (p : Nat) (s : State), s.seq = .idle →
    (p ≤ 7 → ∀ g : Fin 16, ∃ (t : State) (u : Byte), exec (.setdigit p g) s = .next t ∧
      exec (.setbyte p s.cfg.font[g]) s = .next t ∧
      u = s.cfg.font[g] ||| (if s.dots.getLsbD p then 0x80 else 0x00) ∧
      t.trace = s.trace ++ wrregEvents s.cfg (2 * p) u ∧ (wrregEvents s.cfg (2 * p) u).length = 76 ∧
      t.gpio = { s.gpio with out := ⟨true, true, u.getLsbD 7⟩ } ∧ t.result = none ∧ s.onlyBus t ∧ s.noSample t) ∧
    (∀ g, 7 < p → exec (.setdigit p g) s = .refused (.positionOutOfRange p)) ∧
    (∀ g, p ≤ 7 → 15 < g → exec (.setdigit p g) s = .refused (.glyphOutOfRange g)) ∧
    (∀ g, encode s.cfg (.setdigit p g) = .host 0x22 [.nat p, .nat g])

/-- R156 corner case (a), 42_display_state.md R154: SETDOTS then SETDIGIT writes the point iff the mask's bit is set. -/
def Obligations.SetdotsThenSetdigit : Prop :=
  ∀ (m : Byte) (p : Nat) (g : Fin 16) (s t : State), s.ready → p ≤ 7 → exec (.setdots m) s = .next t →
    ∃ (u : State) (b : Byte), exec (.setdigit p g) t = .next u ∧ u.registerHolds (2 * p) b ∧
      b = s.cfg.font[g] ||| (if m.getLsbD p then 0x80 else 0x00) ∧ s.sameMemoryBut (fun a => a = 2 * p) u

/-- R157, R158: CLEAR and CLEARLEDS, in ascending order (decision D14). -/
def Obligations.ClearsSendZeroWrites : Prop :=
  ∀ s : State, s.seq = .idle →
    (∃ t, exec .clear s = .next t ∧ t.trace = s.trace ++ clearEvents s.cfg (fun p => 2 * p) ∧
      t.gpio = { s.gpio with out := ⟨true, true, false⟩ } ∧ t.result = none ∧ s.onlyBus t ∧ s.noSample t) ∧
    (∃ t, exec .clearleds s = .next t ∧ t.trace = s.trace ++ clearEvents s.cfg (fun p => 1 + 2 * p) ∧
      t.gpio = { s.gpio with out := ⟨true, true, false⟩ } ∧ t.result = none ∧ s.onlyBus t ∧ s.noSample t)

/-- R157, R158: CLEAR writes zero to exactly the eight digit registers, CLEARLEDS to exactly the eight LED registers. -/
def Obligations.ClearsStoreZeroInTheirHalf : Prop :=
  ∀ s : State, s.ready →
    (∃ t, exec .clear s = .next t ∧ (∀ p, p ≤ 7 → t.registerHolds (2 * p) 0x00) ∧
      s.sameMemoryBut (fun a => ∃ p, p ≤ 7 ∧ a = 2 * p) t ∧ s.sameControl t ∧ t.ready) ∧
    (∃ t, exec .clearleds s = .next t ∧ (∀ p, p ≤ 7 → t.registerHolds (1 + 2 * p) 0x00) ∧
      s.sameMemoryBut (fun a => ∃ p, p ≤ 7 ∧ a = 1 + 2 * p) t ∧ s.sameControl t ∧ t.ready)

/-- R159: SETLEDS: bit `p` of each mask is LED position `p`; all eight registers are written, in ascending order
(decisions D14, D16); the data line is left at bit 7 of the last byte, that of position 7 (10_state.md R37). -/
def Obligations.SetledsWritesAllLeds : Prop :=
  ∀ (g r : Byte) (s : State), s.seq = .idle → ∃ (t : State) (led : Nat → Byte), exec (.setleds g r) s = .next t ∧
    (∀ p, led p = (if g.getLsbD p then s.cfg.ledGreen else 0) ||| (if r.getLsbD p then s.cfg.ledRed else 0)) ∧
    t.trace = s.trace ++ (List.range 8).flatMap (fun p => wrregEvents s.cfg (1 + 2 * p) (led p)) ∧
    t.gpio = { s.gpio with out := ⟨true, true, (led 7).getLsbD 7⟩ } ∧
    t.result = none ∧ s.onlyBus t ∧ s.noSample t ∧
    (s.ready → (∀ p, p ≤ 7 → t.registerHolds (1 + 2 * p) (led p)) ∧
      s.sameMemoryBut (fun a => ∃ p, p ≤ 7 ∧ a = 1 + 2 * p) t ∧ s.sameControl t ∧ t.ready)

/-- R160: SETLED: the byte holds the green bit for GREEN and BOTH, the red bit for RED and BOTH
(the colour bits are decision D15). -/
def Obligations.SetledWritesColour : Prop :=
  ∀ (p col : Nat) (s : State), s.seq = .idle → p ≤ 7 → col ≤ 3 → ∃ (t : State) (b : Byte),
    exec (.setled p col) s = .next t ∧ t.trace = s.trace ++ wrregEvents s.cfg (1 + 2 * p) b ∧
    (col = 0 → b = 0) ∧ (col = 1 → b = s.cfg.ledGreen) ∧ (col = 2 → b = s.cfg.ledRed) ∧
    (col = 3 → b = s.cfg.ledGreen ||| s.cfg.ledRed) ∧
    t.gpio = { s.gpio with out := ⟨true, true, b.getLsbD 7⟩ } ∧ t.result = none ∧ s.onlyBus t ∧ s.noSample t

/-! Number/Text Formatter (43_formatter.md). -/

/-- 30_encoding.md R98: a pseudo-operation (SETNUMBER, SETNUMBERPAD, SETNUMBERHEX, SETCHAR, SETCHARS) whose writes are all in range
puts on the bus the events of its requests, in order, and nothing else; where it makes one, it leaves strobe and clock high and
the data line at bit 7 of the last byte (10_state.md R37). -/
def Obligations.FormatterRunsItsRequests : Prop :=
  ∀ (i : Instr) (s : State), s.seq = .idle → isPseudo i = true →
    (expansionOf s.cfg i).all (·.inRange) = true → ∃ t, exec i s = .next t ∧
      t.trace = s.trace ++ (expansionOf s.cfg i).flatMap (requestEvents s.cfg s.dots) ∧
      (expansionOf s.cfg i = [] → t.gpio = s.gpio ∧ t.far = s.far) ∧
      (∀ q, (expansionOf s.cfg i).getLast? = some q →
        t.gpio = { s.gpio with out := ⟨true, true, (requestByte s.cfg s.dots q).getLsbD 7⟩ }) ∧
      t.result = none ∧ s.onlyBus t ∧ s.noSample t

/-- 30_encoding.md R98, 42_display_state.md R155: on a ready bus the requests store, in order, each in the digit register of its
position, and nothing else is stored. -/
def Obligations.FormatterStoresItsDigits : Prop :=
  ∀ (i : Instr) (s t : State), s.ready → isPseudo i = true → exec i s = .next t →
    t.far.mem = (expansionOf s.cfg i).foldl (storeRequest s.cfg s.dots) s.far.mem ∧
    s.sameMemoryBut (fun a => ∃ r ∈ expansionOf s.cfg i, a = 2 * r.position) t ∧ s.sameControl t ∧ t.ready

/-- R171: `ndigits10(value)` is the least `n ≥ 1` with `value < 10^n`. -/
def Obligations.DigitCountIsLeast : Prop :=
  ∀ value : Nat, 1 ≤ ndigits10 value ∧ value < 10 ^ ndigits10 value ∧
    ∀ n, 1 ≤ n → value < 10 ^ n → ndigits10 value ≤ n

/-- R172: SETNUMBER: nothing for zero; otherwise the digits, least significant first, from the starting position toward
position 0, until the digits or the positions end. -/
def Obligations.SetnumberPlacesDigits : Prop :=
  ∀ (c : Params) (value offset : Nat) (al : Align),
    (value = 0 → expansionOf c (.setnumber value offset al) = []) ∧
    (value ≠ 0 → ∀ start : Nat, start = (match al with
        | .right => offset
        | .left => offset + ndigits10 value - 1) →
      expansionOf c (.setnumber value offset al) =
        (List.range (min (ndigits10 value) (start + 1))).map (fun j => .digit (start - j) (value / 10 ^ j % 10)))

/-- R173, R174: the padded renderers: at the `j`-th position from `offset` down stands the `j`-th digit while digits remain (for
`PADZERO = DIGIT` also the digit of a zero value, decision D19), then the pad; the field ends at `width` or after position 0. -/
def Obligations.PaddedFieldIsDigitsThenPads : Prop :=
  ∀ (c : Params) (base value offset width : Nat) (pad : Byte), (base = 10 ∨ base = 16) →
    expansionOf c (if base = 10 then .setnumberpad value offset width pad else .setnumberhex value offset width pad) =
      (List.range (min width (offset + 1))).map (fun j =>
        if value / base ^ j ≠ 0 ∨ (j = 0 ∧ c.padZero = .digit) then .digit (offset - j) (value / base ^ j % base)
        else .byte (offset - j) pad)

/-- R175: SETCHAR: the lookup first, then letters, then digits, otherwise nothing. Characters are ASCII codes (log entry 12). -/
def Obligations.SetcharOrderedMatch : Prop :=
  ∀ (c : Params) (p : Nat) (ch : Byte),
    (charLookupOf c ch ≠ 0 → expansionOf c (.setchar p ch) = [.byte p (charLookupOf c ch)]) ∧
    (charLookupOf c ch = 0 →
      (∀ n, n < 26 → (ch = BitVec.ofNat 8 (0x61 + n) ∨ ch = BitVec.ofNat 8 (0x41 + n)) →
        expansionOf c (.setchar p ch) = [.digit p (10 + n)]) ∧
      (∀ n, n < 10 → ch = BitVec.ofNat 8 (0x30 + n) → expansionOf c (.setchar p ch) = [.digit p n]) ∧
      ((∀ n, n < 26 → ch ≠ BitVec.ofNat 8 (0x61 + n) ∧ ch ≠ BitVec.ofNat 8 (0x41 + n)) →
        (∀ n, n < 10 → ch ≠ BitVec.ofNat 8 (0x30 + n)) → expansionOf c (.setchar p ch) = []))

/-- R176: SETCHARS is SETCHAR of each character in turn, one position further each time; the empty text makes no request at any
position and changes nothing. -/
def Obligations.SetcharsIsSetcharInTurn : Prop :=
  (∀ (c : Params) (p : Nat), expansionOf c (.setchars [] p) = []) ∧
  (∀ (p : Nat) (s : State), s.seq = .idle → ∃ t, exec (.setchars [] p) s = .next t ∧ t.trace = s.trace ∧
    t.gpio = s.gpio ∧ t.far = s.far ∧ t.result = none ∧ s.onlyBus t ∧ s.noSample t) ∧
  (∀ (ch : Byte) (text : List Byte) (p : Nat) (s t u : State), exec (.setchar p ch) s = .next t →
    exec (.setchars text (p + 1)) t = .next u → exec (.setchars (ch :: text) p) s = .next u)

/-- R176: a text whose first writes are in range and whose next one is not is refused, and performed event by event the
machine has made the writes before, when it stops (decision D4; log entry 14). -/
def Obligations.WritesBeforeRefusalAreMade : Prop :=
  ∀ (text : List Byte) (offset : Nat) (s : State) (before after : List DigitRequest) (bad : DigitRequest),
    s.seq = .idle → expansionOf s.cfg (.setchars text offset) = before ++ bad :: after → before ≠ [] →
    before.all (·.inRange) = true → bad.inRange = false →
    ∃ (r : Refusal) (u : State), exec (.setchars text offset) s = .refused r ∧
      runEvents (plan (.setchars text offset) s).micros.length (begin (.setchars text offset) s) = .next u ∧
      u.trace = s.trace ++ before.flatMap (requestEvents s.cfg s.dots) ∧ stepEvent u = .refused r

/-! The wire and the reference far-end model (30_encoding.md R86, 20_memory.md R66 to R69). -/

/-- 30_encoding.md R85, R86: each command byte's frame goes over the lines (the model's choice, log entry 9). -/
def Obligations.WireCommandsSendTheirFrames : Prop :=
  ∀ (s : State) (a : BitVec 4) (d : Byte) (l : BitVec 3), s.seq = .idle →
    (∃ t, exec .cmdDataAuto s = .next t ∧ t.trace = s.trace ++ commandEvents s.cfg.cmdDataAuto ∧
      t.gpio = { s.gpio with out := ⟨true, true, s.cfg.cmdDataAuto.getLsbD 7⟩ } ∧ t.result = none ∧ s.onlyBus t ∧
      s.noSample t) ∧
    (∃ t, exec .cmdDataFixed s = .next t ∧ t.trace = s.trace ++ commandEvents s.cfg.cmdDataFixed ∧
      t.gpio = { s.gpio with out := ⟨true, true, s.cfg.cmdDataFixed.getLsbD 7⟩ } ∧ t.result = none ∧ s.onlyBus t ∧
      s.noSample t) ∧
    (∃ t, exec (.cmdDisplayOn l) s = .next t ∧
      t.trace = s.trace ++ commandEvents (s.cfg.cmdDisplayOn ||| l.setWidth 8) ∧
      t.gpio = { s.gpio with out := ⟨true, true, (s.cfg.cmdDisplayOn ||| l.setWidth 8).getLsbD 7⟩ } ∧
      t.result = none ∧ s.onlyBus t ∧ s.noSample t) ∧
    (∃ t, exec (.cmdAddr a d) s = .next t ∧
      t.trace = s.trace ++ writeFrameEvents (s.cfg.cmdAddr ||| a.setWidth 8) d ∧
      t.gpio = { s.gpio with out := ⟨true, true, d.getLsbD 7⟩ } ∧ t.result = none ∧ s.onlyBus t ∧ s.noSample t) ∧
    (∃ t, exec .cmdDataReadKeys s = .next t ∧ t.trace = s.trace ++
      readKeysEvents s.cfg (s.answers 0) (s.answers 1) (s.answers 2) (s.answers 3) ∧
      t.gpio = { s.gpio with dir := { s.gpio.dir with dio := true }, out := ⟨true, true, false⟩ } ∧
      t.result = some (.mask s.maskReceived) ∧ s.onlyBus t ∧ t.env = s.env.drop 32 ∧ t.draws = s.draws + 32)

/-- 20_memory.md R68: what each command's frame does to the far end of a ready bus (decision D17; log entry 9). That the
addressing mode is unspecified but after the fixed-address command, also after CMD_DATA_AUTO, is the model's reading (log
entry 20). -/
def Obligations.WireCommandsActOnFarEnd : Prop :=
  ∀ (s t : State) (a : BitVec 4) (d : Byte) (l : BitVec 3), s.ready →
    (exec .cmdDataAuto s = .next t → s.sameMemory t ∧ s.sameControl t ∧ t.far.mode = none ∧ t.ready) ∧
    (exec .cmdDataFixed s = .next t → s.sameMemory t ∧ s.sameControl t ∧ t.far.mode = some .fixed ∧
      t.mode = .fixed ∧ t.ready) ∧
    (exec (.cmdDisplayOn l) s = .next t → s.sameMemory t ∧ t.controlHolds l ∧ t.far.keys = s.far.keys ∧
      t.keyBytes = s.keyBytes ∧ t.ready) ∧
    (s.far.mode = some .fixed → exec (.cmdAddr a d) s = .next t → t.registerHolds a.toNat d ∧
      s.sameMemoryBut (fun b => b = a.toNat) t ∧ s.sameControl t ∧ t.ready) ∧
    (s.far.mode = none → exec (.cmdAddr a d) s = .next t → t.far.status = .refused) ∧
    (exec .cmdDataReadKeys s = .next t → s.sameMemory t ∧ t.far.ctl = s.far.ctl ∧ t.control = s.control ∧ t.ready ∧
      t.keysHold ⟨s.byteReceived 0, s.byteReceived 1, s.byteReceived 2, s.byteReceived 3⟩)

/-- 20_memory.md R69: any frame that is none of the five of R68 is refused by the reference model. -/
def Obligations.OtherFramesAreRefused : Prop :=
  ∀ (c : Params) (f : FarEnd) (fr : Frame), c.legal →
    (fr.part ≠ [] ∨
      (fr.items ≠ [.tx c.cmdDataAuto] ∧ fr.items ≠ [.tx c.cmdDataFixed] ∧
       (∀ l : BitVec 3, fr.items ≠ [.tx (c.cmdDisplayOn ||| l.setWidth 8)]) ∧
       (∀ (a : BitVec 4) (d : Byte), fr.items = [.tx (c.cmdAddr ||| a.setWidth 8), .tx d] → f.announced = false) ∧
       (∀ k0 k1 k2 k3 : Byte, fr.items ≠ [.tx c.cmdDataReadKeys, .rx k0, .rx k1, .rx k2, .rx k3]))) →
    (f.close c fr).status = .refused

/-- 70_reset_and_hazards.md R228 (reference model: decision D17, log entry 10): an empty frame is refused by the reference
model, and the block goes on. -/
def Obligations.EmptyFrameIsRefused : Prop :=
  ∀ s : State, s.ready → ∃ t u, exec .fopen s = .next t ∧ exec .fclose t = .next u ∧ u.far.status = .refused ∧
    u.trace = s.trace ++ [.setOut .stb false, .setOut .stb true] ∧ u.idleConfig

/-! Invariants over all instructions. -/

/-- 10_state.md R37: every composite operation that starts in the idle configuration ends in it. -/
def Obligations.CompositesKeepIdleConfiguration : Prop :=
  ∀ (i : Instr) (s t : State), isComposite i = true → s.idleConfig → exec i s = .next t → t.idleConfig

/-- 10_state.md R40: only SETDOTS writes `DOTS`, in a whole operation as in a single event; at reset it is the
parameter `DOTS_RESET`, by default 0x00 (decision D12). -/
def Obligations.OnlySetdotsWritesDots : Prop :=
  (∀ (i : Instr) (s t : State), exec i s = .next t → (∀ m, i ≠ .setdots m) → t.dots = s.dots) ∧
  (∀ (s t : State) (i : Instr) (k : Nat), s.seq = .busy i k → (∀ m, i ≠ .setdots m) → step s = .next t →
    t.dots = s.dots) ∧
  (∀ c : Params, (State.resetWith c).dots = c.dotsReset) ∧ State.reset.dots = 0x00

/-- 10_state.md R34: the parameters are no state: no step changes one. -/
def Obligations.ParametersNeverChange : Prop :=
  ∀ s t : State, step s = .next t → t.cfg = s.cfg

/-- 10_state.md R29, R31, 00_scope.md R12: what every operation leaves as it was, that the working registers do not survive
it (the model keeps them at zero then, log entry 2), and that it only adds to the trace. -/
def Obligations.FrameOfEveryOperation : Prop :=
  ∀ (i : Instr) (s t : State), exec i s = .next t → t.cfg = s.cfg ∧ t.requests = s.requests ∧ t.seq = .idle ∧
    t.work = Work.empty ∧ t.gpio.restDir = s.gpio.restDir ∧ t.gpio.restOut = s.gpio.restOut ∧
    ∃ es, t.trace = s.trace ++ es

/-- 40_bus_transport.md R116 corner case (c), 70_reset_and_hazards.md R230: the block waits, and samples, once per received bit
and at no other time: eight times for each byte received. -/
def Obligations.OneDelayAndSamplePerReceivedBit : Prop :=
  ∀ (i : Instr) (s t : State) (es : List Event), exec i s = .next t → t.trace = s.trace ++ es →
    es.countP (·.isDelay) = 8 * bytesReceived i ∧ es.countP (·.isSample) = 8 * bytesReceived i

/-- The invariant of the machine is kept by every step, from every state that meets it: legal parameters, a sequencer
position that exists (10_state.md R30), registers of the far end in canonical form at addresses 0x00 to 0x0F (20_memory.md R52),
nothing known of a far end the reference model does not follow (R69), a frame open only while the strobe is low (R66). -/
def Obligations.StepKeepsInvariant : Prop :=
  ∀ s t : State, s.inv → step s = .next t → t.inv

/-- The invariant holds at reset, for every legal value of the parameters and so for the defaults. -/
def Obligations.ResetMeetsInvariant : Prop :=
  (∀ c : Params, c.legal → (State.resetWith c).inv) ∧ State.reset.inv

/-- 10_state.md R38, R39: what the spec says of reset, whatever the parameters: `seq` idle, `trace` empty, `DOTS` at its
parameter (decision D12), nothing known of the far end. Each of the sixteen registers, each key byte, and
display control, of which nothing is known, hold a free value (log entry 6), and so do addressing mode and cursor (log
entries 20, 23). `State.reset` is this state at the defaults. -/
def Obligations.ResetState : Prop :=
  (∀ c : Params, (State.resetWith c).cfg = c ∧ (State.resetWith c).seq = .idle ∧ (State.resetWith c).trace = [] ∧
    (State.resetWith c).dots = c.dotsReset ∧
    (∀ a, Memory.read (State.resetWith c).far.mem a = none) ∧
    (∀ a, a < 16 → (State.resetWith c).register a = some (Config.register 1 a)) ∧
    (∀ a, 16 ≤ a → (State.resetWith c).register a = none) ∧
    (State.resetWith c).keyBytes = ⟨Config.key 1 0, Config.key 1 1, Config.key 1 2, Config.key 1 3⟩ ∧
    (State.resetWith c).far.ctl = none ∧ (State.resetWith c).far.mode = none ∧
    (State.resetWith c).far.cursor c = none ∧ (State.resetWith c).control = Config.control 1 ∧
    (State.resetWith c).mode = Config.mode 0 ∧ (State.resetWith c).cursor = Config.cursor 0) ∧
  State.reset = State.resetWith defaultParams
end

