-- ==== Sys2Proof/Laws/State.lean ====
section
/-! SUPPORT. One lemma per field per update of the state, each true by rfl, so that no later proof unfolds a record
update. -/

namespace Sys2Proof.Machine

@[simp] theorem State_emit_cfg (e : Event) (s : State) : (s.emit e).cfg = s.cfg := rfl
@[simp] theorem State_emit_gpio (e : Event) (s : State) : (s.emit e).gpio = s.gpio.apply e := rfl
@[simp] theorem State_emit_dots (e : Event) (s : State) : (s.emit e).dots = s.dots := rfl
@[simp] theorem State_emit_work (e : Event) (s : State) : (s.emit e).work = s.work := rfl
@[simp] theorem State_emit_seq (e : Event) (s : State) : (s.emit e).seq = s.seq := rfl
@[simp] theorem State_emit_history (e : Event) (s : State) : (s.emit e).history = e :: s.history := rfl
@[simp] theorem State_emit_result (e : Event) (s : State) : (s.emit e).result = s.result := rfl
@[simp] theorem State_emit_requests (e : Event) (s : State) : (s.emit e).requests = s.requests := rfl
@[simp] theorem State_emit_env (e : Event) (s : State) : (s.emit e).env = s.env := rfl
@[simp] theorem State_emit_draws (e : Event) (s : State) : (s.emit e).draws = s.draws := rfl
@[simp] theorem State_emit_far (e : Event) (s : State) : (s.emit e).far = s.far.observe s.cfg s.gpio e := rfl

@[simp] theorem State_draw_cfg (s : State) : (s.draw).cfg = s.cfg := rfl
@[simp] theorem State_draw_gpio (s : State) : (s.draw).gpio = s.gpio := rfl
@[simp] theorem State_draw_dots (s : State) : (s.draw).dots = s.dots := rfl
@[simp] theorem State_draw_work (s : State) : (s.draw).work = s.work := rfl
@[simp] theorem State_draw_seq (s : State) : (s.draw).seq = s.seq := rfl
@[simp] theorem State_draw_history (s : State) : (s.draw).history = s.history := rfl
@[simp] theorem State_draw_result (s : State) : (s.draw).result = s.result := rfl
@[simp] theorem State_draw_requests (s : State) : (s.draw).requests = s.requests := rfl
@[simp] theorem State_draw_env (s : State) : (s.draw).env = s.env.tail := rfl
@[simp] theorem State_draw_draws (s : State) : (s.draw).draws = s.draws + 1 := rfl
@[simp] theorem State_draw_far (s : State) : (s.draw).far = s.far := rfl

@[simp] theorem State_keepSample_cfg (v : Bool) (s : State) : (s.keepSample v).cfg = s.cfg := rfl
@[simp] theorem State_keepSample_gpio (v : Bool) (s : State) : (s.keepSample v).gpio = s.gpio := rfl
@[simp] theorem State_keepSample_dots (v : Bool) (s : State) : (s.keepSample v).dots = s.dots := rfl
@[simp] theorem State_keepSample_work (v : Bool) (s : State) : (s.keepSample v).work = { s.work with rxb := setBit s.work.rxb s.work.biti.toNat v } := rfl
@[simp] theorem State_keepSample_seq (v : Bool) (s : State) : (s.keepSample v).seq = s.seq := rfl
@[simp] theorem State_keepSample_history (v : Bool) (s : State) : (s.keepSample v).history = s.history := rfl
@[simp] theorem State_keepSample_result (v : Bool) (s : State) : (s.keepSample v).result = s.result := rfl
@[simp] theorem State_keepSample_requests (v : Bool) (s : State) : (s.keepSample v).requests = s.requests := rfl
@[simp] theorem State_keepSample_env (v : Bool) (s : State) : (s.keepSample v).env = s.env := rfl
@[simp] theorem State_keepSample_draws (v : Bool) (s : State) : (s.keepSample v).draws = s.draws := rfl
@[simp] theorem State_keepSample_far (v : Bool) (s : State) : (s.keepSample v).far = s.far := rfl

@[simp] theorem State_complete_cfg (f : Finish) (s : State) : (s.complete f).cfg = s.cfg := rfl
@[simp] theorem State_complete_gpio (f : Finish) (s : State) : (s.complete f).gpio = s.gpio := rfl
@[simp] theorem State_complete_dots (f : Finish) (s : State) : (s.complete f).dots = f.dots s.dots := rfl
@[simp] theorem State_complete_work (f : Finish) (s : State) : (s.complete f).work = Work.empty := rfl
@[simp] theorem State_complete_seq (f : Finish) (s : State) : (s.complete f).seq = .idle := rfl
@[simp] theorem State_complete_history (f : Finish) (s : State) : (s.complete f).history = s.history := rfl
@[simp] theorem State_complete_result (f : Finish) (s : State) : (s.complete f).result = f.result s.work := rfl
@[simp] theorem State_complete_requests (f : Finish) (s : State) : (s.complete f).requests = s.requests := rfl
@[simp] theorem State_complete_env (f : Finish) (s : State) : (s.complete f).env = s.env := rfl
@[simp] theorem State_complete_draws (f : Finish) (s : State) : (s.complete f).draws = s.draws := rfl
@[simp] theorem State_complete_far (f : Finish) (s : State) : (s.complete f).far = s.far := rfl

@[simp] theorem State_withFetchWord_cfg (nbits w : Nat) (s : State) : (s.withFetchWord nbits w).cfg = s.cfg := rfl
@[simp] theorem State_withFetchWord_gpio (nbits w : Nat) (s : State) : (s.withFetchWord nbits w).gpio = s.gpio := rfl
@[simp] theorem State_withFetchWord_dots (nbits w : Nat) (s : State) : (s.withFetchWord nbits w).dots = s.dots := rfl
@[simp] theorem State_withFetchWord_work (nbits w : Nat) (s : State) : (s.withFetchWord nbits w).work = s.work := rfl
@[simp] theorem State_withFetchWord_seq (nbits w : Nat) (s : State) : (s.withFetchWord nbits w).seq = .idle := rfl
@[simp] theorem State_withFetchWord_history (nbits w : Nat) (s : State) : (s.withFetchWord nbits w).history = s.history := rfl
@[simp] theorem State_withFetchWord_result (nbits w : Nat) (s : State) : (s.withFetchWord nbits w).result = s.result := rfl
@[simp] theorem State_withFetchWord_requests (nbits w : Nat) (s : State) : (s.withFetchWord nbits w).requests = requestOfWord s.cfg nbits w :: s.requests := rfl
@[simp] theorem State_withFetchWord_env (nbits w : Nat) (s : State) : (s.withFetchWord nbits w).env = s.env := rfl
@[simp] theorem State_withFetchWord_draws (nbits w : Nat) (s : State) : (s.withFetchWord nbits w).draws = s.draws := rfl
@[simp] theorem State_withFetchWord_far (nbits w : Nat) (s : State) : (s.withFetchWord nbits w).far = s.far := rfl

@[simp] theorem State_resetWith_cfg (c : Params) : (State.resetWith c).cfg = c := rfl
@[simp] theorem State_resetWith_gpio (c : Params) : (State.resetWith c).gpio = ⟨⟨false, false, false⟩, ⟨false, false, false⟩, 0, 0⟩ := rfl
@[simp] theorem State_resetWith_dots (c : Params) : (State.resetWith c).dots = c.dotsReset := rfl
@[simp] theorem State_resetWith_work (c : Params) : (State.resetWith c).work = Work.empty := rfl
@[simp] theorem State_resetWith_seq (c : Params) : (State.resetWith c).seq = .idle := rfl
@[simp] theorem State_resetWith_history (c : Params) : (State.resetWith c).history = [] := rfl
@[simp] theorem State_resetWith_result (c : Params) : (State.resetWith c).result = none := rfl
@[simp] theorem State_resetWith_requests (c : Params) : (State.resetWith c).requests = [] := rfl
@[simp] theorem State_resetWith_env (c : Params) : (State.resetWith c).env = [] := rfl
@[simp] theorem State_resetWith_draws (c : Params) : (State.resetWith c).draws = 0 := rfl
@[simp] theorem State_resetWith_far (c : Params) : (State.resetWith c).far = FarEnd.reset := rfl

@[simp] theorem Lines_set_stb_stb (b : Lines) (v : Bool) : (b.set .stb v).stb = v := rfl
@[simp] theorem Lines_set_stb_clk (b : Lines) (v : Bool) : (b.set .stb v).clk = b.clk := rfl
@[simp] theorem Lines_set_stb_dio (b : Lines) (v : Bool) : (b.set .stb v).dio = b.dio := rfl
@[simp] theorem Lines_set_clk_stb (b : Lines) (v : Bool) : (b.set .clk v).stb = b.stb := rfl
@[simp] theorem Lines_set_clk_clk (b : Lines) (v : Bool) : (b.set .clk v).clk = v := rfl
@[simp] theorem Lines_set_clk_dio (b : Lines) (v : Bool) : (b.set .clk v).dio = b.dio := rfl
@[simp] theorem Lines_set_dio_stb (b : Lines) (v : Bool) : (b.set .dio v).stb = b.stb := rfl
@[simp] theorem Lines_set_dio_clk (b : Lines) (v : Bool) : (b.set .dio v).clk = b.clk := rfl
@[simp] theorem Lines_set_dio_dio (b : Lines) (v : Bool) : (b.set .dio v).dio = v := rfl
@[simp] theorem Lines_get_stb (b : Lines) : b.get .stb = b.stb := rfl
@[simp] theorem Lines_get_clk (b : Lines) : b.get .clk = b.clk := rfl
@[simp] theorem Lines_get_dio (b : Lines) : b.get .dio = b.dio := rfl

@[simp] theorem Gpio_apply_setDir_dir (l : Line) (d : Bool) (g : Gpio) : (g.apply (.setDir l d)).dir = g.dir.set l d := rfl
@[simp] theorem Gpio_apply_setDir_out (l : Line) (d : Bool) (g : Gpio) : (g.apply (.setDir l d)).out = g.out := rfl
@[simp] theorem Gpio_apply_setDir_restDir (l : Line) (d : Bool) (g : Gpio) : (g.apply (.setDir l d)).restDir = g.restDir := rfl
@[simp] theorem Gpio_apply_setDir_restOut (l : Line) (d : Bool) (g : Gpio) : (g.apply (.setDir l d)).restOut = g.restOut := rfl
@[simp] theorem Gpio_apply_setOut_dir (l : Line) (v : Bool) (g : Gpio) : (g.apply (.setOut l v)).dir = g.dir := rfl
@[simp] theorem Gpio_apply_setOut_out (l : Line) (v : Bool) (g : Gpio) : (g.apply (.setOut l v)).out = g.out.set l v := rfl
@[simp] theorem Gpio_apply_setOut_restDir (l : Line) (v : Bool) (g : Gpio) : (g.apply (.setOut l v)).restDir = g.restDir := rfl
@[simp] theorem Gpio_apply_setOut_restOut (l : Line) (v : Bool) (g : Gpio) : (g.apply (.setOut l v)).restOut = g.restOut := rfl
@[simp] theorem Gpio_apply_sample (l : Line) (v : Bool) (g : Gpio) : g.apply (.sample l v) = g := rfl
@[simp] theorem Gpio_apply_delay (t : Nat) (g : Gpio) : g.apply (.delay t) = g := rfl

/-- An event is recorded at the end of the trace (00_scope.md R12). -/
@[simp] theorem State_emit_trace (e : Event) (s : State) : (s.emit e).trace = s.trace ++ [e] := by
  simp [State.trace]

@[simp] theorem State_draw_trace (s : State) : s.draw.trace = s.trace := rfl

@[simp] theorem State_keepSample_trace (v : Bool) (s : State) : (s.keepSample v).trace = s.trace := rfl

@[simp] theorem State_complete_trace (f : Finish) (s : State) : (s.complete f).trace = s.trace := rfl

/-- 10_state.md R22: an event changes no bit of the port that belongs to no line of the block. -/
@[simp] theorem Gpio_apply_restDir (e : Event) (g : Gpio) : (g.apply e).restDir = g.restDir := by cases e <;> rfl

@[simp] theorem Gpio_apply_restOut (e : Event) (g : Gpio) : (g.apply e).restOut = g.restOut := by cases e <;> rfl

/-! What the far end's registers hold (20_memory.md R67). -/

/-- A register that a frame has written holds the byte written. -/
theorem State_register_of_read {s : State} {a : Nat} {v : Byte} (h : Memory.read s.far.mem a = some v) (ha : a ≤ 0x0F) :
    s.register a = some v := by
  simp [State.register, ha, h]

/-- No address above 0x0F exists (20_memory.md R52). -/
theorem State_register_absent {s : State} {a : Nat} (ha : 0x0F < a) : s.register a = none := by
  simp [State.register, Nat.not_le.2 ha]

/-- A register of a far end that is followed holds what a frame has written, or the same free value at every moment. -/
theorem State_register_of_following {s : State} (h : s.far.status = .following) (a : Nat) :
    s.register a = if a ≤ 0x0F then some ((Memory.read s.far.mem a).getD (Config.register 0 a)) else none := by
  simp [State.register, State.unknowns, h]

/-- Where no frame has written a register and the reference model goes on following the bus, the register reads as before. -/
theorem sameMemoryBut_of_read {stored : Nat → Prop} {s t : State}
    (hf : s.far.status = .following → t.far.status = .following)
    (h : ∀ a, ¬ stored a → Memory.read t.far.mem a = Memory.read s.far.mem a) : s.sameMemoryBut stored t := fun a ha =>
  ⟨h a ha, fun hs => by rw [State_register_of_following hs, State_register_of_following (hf hs), h a ha]⟩

/-- The display control of a far end that is followed: what a frame has set, or the same free value at every moment. -/
theorem State_control_of_following {s : State} (h : s.far.status = .following) :
    s.control = (s.far.ctl.map (fun l => ⟨true, l⟩)).getD (Config.control 0) := by
  simp only [State.control, State.unknowns, h]

/-- The key bytes of a far end that is followed: those a frame has taken, or the same free values at every moment. -/
theorem State_keyBytes_of_following {s : State} (h : s.far.status = .following) :
    s.keyBytes = s.far.keys.getD ⟨Config.key 0 0, Config.key 0 1, Config.key 0 2, Config.key 0 3⟩ := by
  simp only [State.keyBytes, State.unknowns, h]

/-- Where no frame sets them and the reference model goes on following the bus, control and keys are what they were. -/
theorem sameControl_of_eq {s t : State} (hf : s.far.status = .following → t.far.status = .following)
    (hc : t.far.ctl = s.far.ctl) (hk : t.far.keys = s.far.keys) : s.sameControl t := ⟨hc, hk, fun hs =>
  ⟨by rw [State_control_of_following hs, State_control_of_following (hf hs), hc],
   by rw [State_keyBytes_of_following hs, State_keyBytes_of_following (hf hs), hk]⟩⟩

/-- A display control that a frame has set is on at that level. -/
theorem controlHolds_of_ctl {s : State} {l : BitVec 3} (h : s.far.ctl = some l) : s.controlHolds l :=
  ⟨h, by simp [State.control, h]⟩

/-- Key bytes that a frame has taken are those it took. -/
theorem keysHold_of_keys {s : State} {k : KeyBytes} (h : s.far.keys = some k) : s.keysHold k :=
  ⟨h, by simp [State.keyBytes, h]⟩

/-- An addressing mode that is known is the mode. -/
theorem State_mode_of_known {s : State} {m : AddrMode} (h : s.far.mode = some m) : s.mode = m := by
  simp [State.mode, h]

/-- A cursor that is known is the cursor. -/
theorem State_cursor_of_known {s : State} {a : BitVec 4} (h : s.far.cursor s.cfg = some a) : s.cursor = a := by
  simp [State.cursor, h]

/-- A byte that a frame has written to a register that exists is what the register holds. -/
theorem registerHolds_of_read {s : State} {a : Nat} {v : Byte} (h : Memory.read s.far.mem a = some v) (ha : a ≤ 0x0F) :
    s.registerHolds a v := ⟨h, State_register_of_read h ha⟩

end Sys2Proof.Machine
end

