-- ==== Sys2Proof/Laws/Ops.lean ====
section
/-! SUPPORT. What each shared operation can do, said once: memory, the far end, micro-operations, `perform`, `advance`. -/

namespace Sys2Proof.Machine

/-! Memory (20_memory.md R52, 00_scope.md R13). -/

theorem memory_read_write_same (m : List Host.Cell) (a : Nat) (v : Byte) :
    Memory.read (Memory.write m a v) a = some v := by
  induction m with
  | nil => simp [Memory.write, Memory.read]
  | cons x m ih =>
    obtain ⟨b, w⟩ := x
    simp only [Memory.write]
    split
    · simp [Memory.read]
    · split
      · simp [Memory.read]
      · next h => simp [Memory.read, Ne.symm h, ih]

theorem memory_read_write_other (m : List Host.Cell) (a b : Nat) (v : Byte) (h : b ≠ a) :
    Memory.read (Memory.write m a v) b = Memory.read m b := by
  induction m with
  | nil => simp [Memory.write, Memory.read, Ne.symm h]
  | cons x m ih =>
    obtain ⟨c, w⟩ := x
    simp only [Memory.write]
    split
    · simp [Memory.read, Ne.symm h]
    · split
      · next hac => subst hac; simp [Memory.read, Ne.symm h]
      · simp only [Memory.read, ih]

/-- The canonical form, as a list in strictly rising order. -/
theorem memory_sorted_iff (m : List Host.Cell) :
    Memory.sorted m = true ↔ m.Pairwise (fun x y => x.1 < y.1) := by
  induction m with
  | nil => simp [Memory.sorted]
  | cons x m ih =>
    cases m with
    | nil => simp [Memory.sorted]
    | cons y m =>
      obtain ⟨a, v⟩ := x
      obtain ⟨b, w⟩ := y
      simp only [Memory.sorted, Bool.and_eq_true, decide_eq_true_eq, ih]
      constructor
      · rintro ⟨hab, h⟩
        refine List.pairwise_cons.2 ⟨fun z hz => ?_, h⟩
        rcases List.mem_cons.1 hz with rfl | hz
        · exact hab
        · exact Nat.lt_trans hab ((List.pairwise_cons.1 h).1 z hz)
      · intro h
        exact ⟨(List.pairwise_cons.1 h).1 (b, w) (by simp), (List.pairwise_cons.1 h).2⟩

theorem memory_mem_write {m : List Host.Cell} {a : Nat} {v : Byte} {x : Host.Cell}
    (h : x ∈ Memory.write m a v) : x = (a, v) ∨ x ∈ m := by
  induction m with
  | nil => simpa [Memory.write] using h
  | cons y m ih =>
    obtain ⟨b, w⟩ := y
    simp only [Memory.write] at h
    split at h
    · simpa using h
    · split at h
      · rcases List.mem_cons.1 h with rfl | h
        · exact .inl rfl
        · exact .inr (List.mem_cons_of_mem _ h)
      · rcases List.mem_cons.1 h with rfl | h
        · exact .inr (List.mem_cons_self ..)
        · rcases ih h with h | h
          · exact .inl h
          · exact .inr (List.mem_cons_of_mem _ h)

/-- A write keeps the canonical form. -/
theorem memory_write_wf (m : List Host.Cell) (a : Nat) (v : Byte) (hm : Memory.wf m = true) (ha : a < 16) :
    Memory.wf (Memory.write m a v) = true := by
  simp only [Memory.wf, Bool.and_eq_true, memory_sorted_iff, List.all_eq_true, decide_eq_true_eq] at hm ⊢
  obtain ⟨hs, hb⟩ := hm
  refine ⟨?_, fun x hx => ?_⟩
  · clear hb
    induction m with
    | nil => simp [Memory.write]
    | cons y m ih =>
      obtain ⟨b, w⟩ := y
      obtain ⟨h1, h2⟩ := List.pairwise_cons.1 hs
      simp only [Memory.write]
      split
      · next hab =>
        refine List.pairwise_cons.2 ⟨fun z hz => ?_, hs⟩
        rcases List.mem_cons.1 hz with rfl | hz
        · exact hab
        · exact Nat.lt_trans hab (h1 z hz)
      · split
        · next hab => subst hab; exact List.pairwise_cons.2 ⟨h1, h2⟩
        · next h3 h4 =>
          refine List.pairwise_cons.2 ⟨fun z hz => ?_, ih h2⟩
          rcases memory_mem_write hz with rfl | hz
          · simp only; omega
          · exact h1 z hz
  · rcases memory_mem_write hx with rfl | hx
    · exact ha
    · exact hb x hx

/-! The far end (20_memory.md R66 to R69). -/

/-- A complete frame stores at most one byte, at an address that exists (R52, R68), closes the frame, and leaves the model
following or knowing nothing (R69). -/
theorem farEnd_receive_inv (c : Params) (items : List Item) (f : FarEnd) (h : f.inv) (hf : f.status = .following) :
    (f.receive c items).inv ∧ (f.receive c items).frame = none := by
  have hr : f.refuse.inv ∧ f.refuse.frame = none := by
    simp [FarEnd.refuse, FarEnd.reset, FarEnd.inv, FarEnd.knowsNothing, Memory.wf, Memory.sorted]
  unfold FarEnd.receive
  split
  · split
    · simpa [FarEnd.dataAuto, FarEnd.inv, hf] using h.1
    · simpa [FarEnd.dataFixed, FarEnd.inv, hf] using h.1
    · simpa [FarEnd.displayOn, FarEnd.inv, hf] using h.1
    · exact hr
  · split
    · next a _ _ =>
      have := memory_write_wf f.mem a.toNat
      simp [FarEnd.store, FarEnd.inv, hf, this, h.1, a.isLt]
    · exact hr
  · split
    · simpa [FarEnd.readKeys, FarEnd.inv, hf] using h.1
    · exact hr
  · exact hr

theorem farEnd_close_inv (c : Params) (fr : Frame) (f : FarEnd) (h : f.inv) (hf : f.status = .following) :
    (f.close c fr).inv ∧ (f.close c fr).frame = none := by
  unfold FarEnd.close
  split
  · exact farEnd_receive_inv c _ f h hf
  · simp [FarEnd.refuse, FarEnd.reset, FarEnd.inv, FarEnd.knowsNothing, Memory.wf, Memory.sorted]

/-- What one event can do to the far end: it keeps the invariant, and a frame is open afterwards only if the strobe is
low. -/
theorem farEnd_observe_inv (c : Params) (g : Gpio) (e : Event) (f : FarEnd) (h : f.inv)
    (hs : f.frame ≠ none → g.out.stb = false) :
    (f.observe c g e).inv ∧ ((f.observe c g e).frame ≠ none → (g.apply e).out.stb = false) := by
  have keep : f.inv ∧ (f.frame ≠ none → g.out.stb = false) := ⟨h, hs⟩
  unfold FarEnd.observe
  split
  · next hst =>
    have hn : f.frame = none := (h.2 (by simp [hst])).2.2.2.2
    exact ⟨h, fun hne => absurd hn hne⟩
  · next hst =>
    have hn : f.frame = none := (h.2 (by simp [hst])).2.2.2.2
    exact ⟨h, fun hne => absurd hn hne⟩
  · next hst =>
    have hinv : ∀ fr : Option Frame, ({ f with frame := fr } : FarEnd).inv := fun fr =>
      ⟨h.1, fun hne => absurd hst hne⟩
    unfold FarEnd.see
    split
    · split
      · exact ⟨hinv _, fun _ => rfl⟩
      · exact ⟨h, fun _ => rfl⟩
    · split
      · next fr _ =>
        obtain ⟨h1, h2⟩ := farEnd_close_inv c fr f h hst
        exact ⟨h1, fun hne => absurd h2 hne⟩
      · next hn => exact ⟨h, fun hne => absurd hn hne⟩
    · split
      · next fr hfr =>
        have hlow : g.out.stb = false := hs (by simp [hfr])
        split
        · exact ⟨hinv _, fun _ => hlow⟩
        · exact ⟨h, fun _ => hlow⟩
      · next hn => exact ⟨h, fun hne => absurd hn hne⟩
    · split
      · next fr hfr =>
        have hlow : g.out.stb = false := hs (by simp [hfr])
        split
        · exact ⟨h, fun _ => hlow⟩
        · exact ⟨hinv _, fun _ => hlow⟩
      · next hn => exact ⟨h, fun hne => absurd hn hne⟩
    · exact keep
    · exact keep
    · exact ⟨h, fun hne => by simpa using hs hne⟩
    · exact keep
    · exact keep
    · exact keep

theorem farEnd_follow_inv (f : FarEnd) (h : f.inv) (b : Bool) (hs : f.frame ≠ none → b = false) :
    f.follow.inv ∧ (f.follow.frame ≠ none → b = false) := by
  unfold FarEnd.follow
  split
  · simp [FarEnd.reset, FarEnd.inv, FarEnd.knowsNothing, Memory.wf, Memory.sorted]
  · exact ⟨h, hs⟩
  · exact ⟨h, hs⟩

/-! Micro-operations (10_state.md R30, R31). -/

/-- The fields that no transfer and no event changes. -/
theorem transfer_run_frame (t : Transfer) (s : State) :
    (t.run s).cfg = s.cfg ∧ (t.run s).dots = s.dots ∧ (t.run s).seq = s.seq ∧ (t.run s).result = s.result ∧
    (t.run s).requests = s.requests ∧ (t.run s).gpio = s.gpio ∧ (t.run s).history = s.history ∧
    (t.run s).env = s.env ∧ (t.run s).draws = s.draws := by
  cases t <;> simp [Transfer.run]

theorem transfers_run_frame (ts : List Transfer) (s : State) :
    (ts.foldl (fun s t => t.run s) s).cfg = s.cfg ∧ (ts.foldl (fun s t => t.run s) s).dots = s.dots ∧
    (ts.foldl (fun s t => t.run s) s).seq = s.seq ∧ (ts.foldl (fun s t => t.run s) s).result = s.result ∧
    (ts.foldl (fun s t => t.run s) s).requests = s.requests ∧ (ts.foldl (fun s t => t.run s) s).gpio = s.gpio ∧
    (ts.foldl (fun s t => t.run s) s).history = s.history ∧ (ts.foldl (fun s t => t.run s) s).env = s.env ∧
    (ts.foldl (fun s t => t.run s) s).draws = s.draws := by
  induction ts generalizing s with
  | nil => simp
  | cons t ts ih => simp only [List.foldl_cons, ih, transfer_run_frame, and_self]

/-- One micro-operation records one event and changes no parameter, no `DOTS`, no sequencer position, no result, no
pending request and no foreign bit of the port. -/
theorem micro_run_frame (m : Micro) (s : State) :
    (m.run s).cfg = s.cfg ∧ (m.run s).dots = s.dots ∧ (m.run s).seq = s.seq ∧ (m.run s).result = s.result ∧
    (m.run s).requests = s.requests ∧ (m.run s).gpio.restDir = s.gpio.restDir ∧
    (m.run s).gpio.restOut = s.gpio.restOut ∧ ∃ e, (m.run s).trace = s.trace ++ [e] := by
  obtain ⟨h1, h2, h3, h4, h5, h6, h7, _, _⟩ := transfers_run_frame m.pre s
  have ht : (m.pre.foldl (fun s t => t.run s) s).trace = s.trace := by simp [State.trace, h7]
  unfold Micro.run Action.run
  split <;> simp [h1, h2, h3, h4, h5, h6, ht]

/-- One micro-operation is one event: it is recorded, and the GPIO bits are what the event makes of them. -/
theorem micro_run_event (m : Micro) (s : State) :
    ∃ e, (m.run s).trace = s.trace ++ [e] ∧ (m.run s).gpio = s.gpio.apply e := by
  obtain ⟨_, _, _, _, _, h6, h7, _, _⟩ := transfers_run_frame m.pre s
  have ht : (m.pre.foldl (fun s t => t.run s) s).trace = s.trace := by simp [State.trace, h7]
  have key : ∀ e, (State.emit e (m.pre.foldl (fun s t => t.run s) s)).trace = s.trace ++ [e] ∧
      (State.emit e (m.pre.foldl (fun s t => t.run s) s)).gpio = s.gpio.apply e := fun e => by simp [ht, h6]
  unfold Micro.run Action.run
  split <;> exact ⟨_, key _⟩

@[simp] theorem runMicros_nil (s : State) : s.runMicros [] = s := rfl

@[simp] theorem runMicros_cons (m : Micro) (ms : List Micro) (s : State) :
    s.runMicros (m :: ms) = (m.run s).runMicros ms := rfl

theorem runMicros_append (ms ns : List Micro) (s : State) :
    s.runMicros (ms ++ ns) = (s.runMicros ms).runMicros ns := by
  simp [State.runMicros]

/-- What a run of micro-operations can change, and that it records one event for each (10_state.md R30). -/
theorem runMicros_frame (ms : List Micro) (s : State) :
    (s.runMicros ms).cfg = s.cfg ∧ (s.runMicros ms).dots = s.dots ∧ (s.runMicros ms).seq = s.seq ∧
    (s.runMicros ms).result = s.result ∧ (s.runMicros ms).requests = s.requests ∧
    (s.runMicros ms).gpio.restDir = s.gpio.restDir ∧ (s.runMicros ms).gpio.restOut = s.gpio.restOut ∧
    ∃ es, (s.runMicros ms).trace = s.trace ++ es ∧ es.length = ms.length := by
  induction ms generalizing s with
  | nil => simp
  | cons m ms ih =>
    obtain ⟨a1, a2, a3, a4, a5, a6, a7, e, a8⟩ := micro_run_frame m s
    obtain ⟨b1, b2, b3, b4, b5, b6, b7, es, b8, b9⟩ := ih (m.run s)
    refine ⟨b1.trans a1, b2.trans a2, b3.trans a3, b4.trans a4, b5.trans a5, b6.trans a6, b7.trans a7, e :: es, ?_, ?_⟩
    · simp [b8, a8]
    · simp [b9]

/-- What a run keeps of the invariant: the far end in canonical form, a frame open only while the strobe is low. -/
theorem micro_run_far (m : Micro) (s : State) (h : s.far.inv ∧ (s.far.frame ≠ none → s.gpio.out.stb = false)) :
    (m.run s).far.inv ∧ ((m.run s).far.frame ≠ none → (m.run s).gpio.out.stb = false) := by
  have hpre : ∀ (ts : List Transfer) (s : State),
      s.far.inv ∧ (s.far.frame ≠ none → s.gpio.out.stb = false) →
      (ts.foldl (fun s t => t.run s) s).far.inv ∧
        ((ts.foldl (fun s t => t.run s) s).far.frame ≠ none →
          (ts.foldl (fun s t => t.run s) s).gpio.out.stb = false) := by
    intro ts
    induction ts with
    | nil => exact fun s h => h
    | cons t ts ih =>
      intro s h
      refine ih (t.run s) ?_
      cases t <;> try exact h
      exact farEnd_follow_inv s.far h.1 _ h.2
  have hemit : ∀ (e : Event) (s : State), s.far.inv ∧ (s.far.frame ≠ none → s.gpio.out.stb = false) →
      (s.emit e).far.inv ∧ ((s.emit e).far.frame ≠ none → (s.emit e).gpio.out.stb = false) :=
    fun e s h => farEnd_observe_inv s.cfg s.gpio e s.far h.1 h.2
  have h' := hpre m.pre s h
  unfold Micro.run Action.run
  split <;> exact hemit _ _ h'

theorem runMicros_far (ms : List Micro) (s : State) (h : s.far.inv ∧ (s.far.frame ≠ none → s.gpio.out.stb = false)) :
    (s.runMicros ms).far.inv ∧ ((s.runMicros ms).far.frame ≠ none → (s.runMicros ms).gpio.out.stb = false) := by
  induction ms generalizing s with
  | nil => exact h
  | cons m ms ih => exact ih (m.run s) (micro_run_far m s h)

/-! Running an operation (10_state.md R31, R32). -/

/-- `perform` answers a next state exactly when the sequencer is idle and nothing is refused; then it is this one. -/
theorem perform_next_iff (p : Plan) (s t : State) :
    perform p s = .next t ↔ s.seq = .idle ∧ p.stop = none ∧ t = (p.reached s).complete p.finish := by
  unfold perform
  cases s.seq with
  | busy i k => simp
  | idle => cases p.stop <;> simp [eq_comm]

/-- `perform` refuses exactly while the sequencer is busy and where the plan does. -/
theorem perform_refused_iff (p : Plan) (s : State) (r : Refusal) :
    perform p s = .refused r ↔ (s.seq = .idle ∧ p.stop = some r) ∨ (s.seq ≠ .idle ∧ r = .requestWhileBusy) := by
  unfold perform
  cases s.seq with
  | busy i k => simp [eq_comm]
  | idle => cases p.stop <;> simp

/-- A plan whose operands are in their domain is its events; otherwise it is the refusal. -/
@[simp] theorem plan_guarded_none (ms : List Micro) (f : Finish) : Plan.guarded none ms f = ⟨ms, f, none⟩ := rfl

@[simp] theorem plan_guarded_some (r : Refusal) (ms : List Micro) (f : Finish) :
    Plan.guarded (some r) ms f = Plan.refusal r := rfl

theorem positionStop_ok {p : Nat} (h : p ≤ 7) : positionStop p = none := by simp [positionStop, h]

theorem positionStop_out {p : Nat} (h : 7 < p) : positionStop p = some (.positionOutOfRange p) := by
  simp [positionStop, Nat.not_le.2 h]

theorem addressStop_ok {a : Nat} (h : a ≤ 15) : addressStop a = none := by simp [addressStop, h]

theorem glyphStop_ok {g : Nat} (h : g ≤ 15) : glyphStop g = none := by simp [glyphStop, h]

theorem levelStop_ok {l : Nat} (h : l ≤ 7) : levelStop l = none := by simp [levelStop, h]

theorem colourStop_ok {c : Nat} (h : c ≤ 3) : colourStop c = none := by simp [colourStop, h]

/-- `exec` runs the plan of the operation (10_state.md R32). -/
theorem exec_eq_perform (i : Instr) (s : State) : exec i s = perform (plan i s) s := by
  cases i <;> rfl

end Sys2Proof.Machine
end

