-- ==== Sys2Proof/Laws/Bus.lean ====
section
/-! SUPPORT. What the transport operations and the frames leave behind, in closed form: one lemma per bit cell, per byte
and per frame, which the statements about composite operations cite. -/

namespace Sys2Proof.Machine

/-- 20_memory.md R66: one bit of a frame that is open. -/
def FarEnd.takeBit (w : WireBit) (f : FarEnd) : FarEnd :=
  match f.status, f.frame with
  | .following, some fr => { f with frame := some (fr.push w) }
  | _, _ => f

/-- The bits a byte sends or receives, in order (R55). -/
def FarEnd.takeBits (ws : List WireBit) (f : FarEnd) : FarEnd := ws.foldl (fun f w => f.takeBit w) f

/-- The bits of a byte, first to last. -/
def bitsOf (b : Byte) : List Bool := (List.range 8).map (fun i => b.getLsbD i)

theorem byteOfBits_bitsOf (b : Byte) : byteOfBits (bitsOf b) = b := by
  revert b; decide

/-- Eight bits of one direction make an item of the frame that begins a byte. -/
theorem takeBits_tx (f : FarEnd) (items : List Item) (vs : List Bool) (hl : vs.length = 8)
    (hs : f.status = .following) (hf : f.frame = some ⟨items, []⟩) :
    f.takeBits (vs.map .tx) = { f with frame := some ⟨items ++ [.tx (byteOfBits vs)], []⟩ } := by
  obtain ⟨st, mem, ctl, keys, ann, fr⟩ := f
  simp only at hs hf
  subst hs hf
  match vs, hl with
  | [v0, v1, v2, v3, v4, v5, v6, v7], _ =>
    simp [FarEnd.takeBits, FarEnd.takeBit, Frame.push, itemOfBits, WireBit.isTx, WireBit.bit]

theorem takeBits_rx (f : FarEnd) (items : List Item) (vs : List Bool) (hl : vs.length = 8)
    (hs : f.status = .following) (hf : f.frame = some ⟨items, []⟩) :
    f.takeBits (vs.map .rx) = { f with frame := some ⟨items ++ [.rx (byteOfBits vs)], []⟩ } := by
  obtain ⟨st, mem, ctl, keys, ann, fr⟩ := f
  simp only at hs hf
  subst hs hf
  match vs, hl with
  | [v0, v1, v2, v3, v4, v5, v6, v7], _ =>
    simp [FarEnd.takeBits, FarEnd.takeBit, Frame.push, itemOfBits, WireBit.isTx, WireBit.bit]

/-- Without an open frame, or without a model that follows the bus, no bit is taken. -/
theorem takeBits_idle (f : FarEnd) (ws : List WireBit) (h : f.status = .following → f.frame = none) :
    f.takeBits ws = f := by
  induction ws with
  | nil => rfl
  | cons w ws ih =>
    have : f.takeBit w = f := by
      unfold FarEnd.takeBit
      split
      · next h1 h2 => simp [h h1] at h2
      · rfl
    simpa [FarEnd.takeBits, this] using ih

/-! One bit cell. -/

/-- 30_encoding.md R83: the transmit bit cell. -/
theorem sendCell_run (i : BitVec 3) (s : State) :
    s.runMicros (sendCell i) =
      { s with
        history := (sendCellEvents (s.work.txb.getLsbD i.toNat)).reverse ++ s.history
        gpio := { s.gpio with out := ⟨s.gpio.out.stb, true, s.work.txb.getLsbD i.toNat⟩ }
        work := { s.work with biti := i }
        far := if s.gpio.dir.dio then s.far.takeBit (.tx (s.work.txb.getLsbD i.toNat)) else s.far } := by
  obtain ⟨c, ⟨⟨d1, d2, d3⟩, ⟨o1, o2, o3⟩, r1, r2⟩, dots, w, q, h, r, rq, env, dr, ⟨st, mem, ctl, keys, ann, fr⟩⟩ := s
  cases st <;> cases fr <;> cases d3 <;>
    simp [State.runMicros, sendCell, Micro.run, Action.run, Transfer.run, State.emit, Gpio.apply, Lines.set,
      FarEnd.observe, FarEnd.see, FarEnd.takeBit, sendCellEvents]

/-- 30_encoding.md R83: the receive bit cell, the line an input with its pull-up on. -/
theorem recvCell_run (i : BitVec 3) (s : State) (hd : s.gpio.dir.dio = false) (ho : s.gpio.out.dio = true) :
    s.runMicros (recvCell i) =
      { s with
        history := (recvCellEvents s.cfg.tSettle (s.answer 0)).reverse ++ s.history
        gpio := { s.gpio with out := { s.gpio.out with clk := true } }
        work := { s.work with biti := i, rxb := setBit s.work.rxb i.toNat (s.answer 0) }
        env := s.env.tail
        draws := s.draws + 1
        far := s.far.takeBit (.rx (s.answer 0)) } := by
  obtain ⟨c, ⟨⟨d1, d2, d3⟩, ⟨o1, o2, o3⟩, r1, r2⟩, dots, w, q, h, r, rq, env, dr, ⟨st, mem, ctl, keys, ann, fr⟩⟩ := s
  simp only at hd ho
  subst hd ho
  cases env with
  | nil =>
    cases hx : Config.ext .dio dr <;> cases st <;> cases fr <;>
      simp [State.runMicros, recvCell, Micro.run, Action.run, Transfer.run, State.emit, Gpio.apply, Lines.set,
        Lines.get, FarEnd.observe, FarEnd.see, FarEnd.takeBit, recvCellEvents, State.answer, State.level, State.drive,
        State.keepSample, State.draw, hx]
  | cons e env =>
    cases e <;> cases st <;> cases fr <;>
      simp [State.runMicros, recvCell, Micro.run, Action.run, Transfer.run, State.emit, Gpio.apply, Lines.set,
        Lines.get, FarEnd.observe, FarEnd.see, FarEnd.takeBit, recvCellEvents, State.answer, State.level, State.drive,
        State.keepSample, State.draw]

/-! One byte. -/

theorem withPre_run (ts : List Transfer) (m : Micro) (ms : List Micro) (s : State) :
    s.runMicros (withPre ts (m :: ms)) = (ts.foldl (fun s t => t.run s) s).runMicros (m :: ms) := by
  simp [withPre, Micro.run]

/-- 40_bus_transport.md R114: SEND. -/
theorem sendMicros_run (b : Byte) (s : State) :
    s.runMicros (sendMicros b) =
      { s with
        history := (sendEvents b).reverse ++ s.history
        gpio := { s.gpio with out := ⟨s.gpio.out.stb, true, b.getLsbD 7⟩ }
        work := { s.work with txb := b, biti := 7 }
        far := if s.gpio.dir.dio then s.far.takeBits ((bitsOf b).map .tx) else s.far } := by
  have hpre : s.runMicros (sendMicros b) =
      ({ s with work := { s.work with txb := b } } : State).runMicros (bitIndices.flatMap sendCell) := by
    simp [sendMicros, bitIndices, sendCell, withPre, Micro.run, Transfer.run]
  rw [hpre]
  simp only [bitIndices, List.flatMap_cons, List.flatMap_nil, List.append_nil, runMicros_append, sendCell_run]
  cases hd : s.gpio.dir.dio <;>
    simp [sendEvents, bitsOf, List.range_succ, FarEnd.takeBits]

theorem setBit_chain (v0 v1 v2 v3 v4 v5 v6 v7 : Bool) :
    setBit (setBit (setBit (setBit (setBit (setBit (setBit (setBit 0 0 v0) 1 v1) 2 v2) 3 v3) 4 v4) 5 v5) 6 v6) 7 v7
      = byteOfBits [v0, v1, v2, v3, v4, v5, v6, v7] := by
  revert v0 v1 v2 v3 v4 v5 v6 v7; decide

theorem answer_after (s : State) (n j : Nat) (env : List (Option Bool)) (h : env = s.env.drop n) (t : State)
    (ht : t.env = env) (hd : t.draws = s.draws + n) : t.answer j = s.answer (n + j) := by
  subst h
  simp [State.answer, ht, hd, List.getElem?_drop, Nat.add_assoc]

/-- 40_bus_transport.md R116: RECV. -/
theorem recvMicros_run (s : State) :
    s.runMicros recvMicros =
      { s with
        history := (recvEvents s.cfg.tSettle (s.answers 0)).reverse ++ s.history
        gpio := { s.gpio with dir := { s.gpio.dir with dio := true }, out := ⟨s.gpio.out.stb, true, false⟩ }
        work := { s.work with biti := 7, rxb := s.byteReceived 0 }
        env := s.env.drop 8
        draws := s.draws + 8
        far := s.far.takeBits ((s.answers 0).map .rx) } := by
  have hopen : ∀ s : State, s.runMicros [⟨[], .setDir .dio false⟩, ⟨[], .setOut .dio true⟩] =
      { s with
        history := [.setOut .dio true, .setDir .dio false] ++ s.history
        gpio := { s.gpio with dir := { s.gpio.dir with dio := false }, out := { s.gpio.out with dio := true } } } := by
    intro s
    cases hst : s.far.status <;>
      simp [State.runMicros, Micro.run, Action.run, State.emit, Gpio.apply, Lines.set, FarEnd.observe, FarEnd.see, hst]
  have hclose : ∀ s : State, s.runMicros [⟨[], .setOut .dio false⟩, ⟨[], .setDir .dio true⟩] =
      { s with
        history := [.setDir .dio true, .setOut .dio false] ++ s.history
        gpio := { s.gpio with dir := { s.gpio.dir with dio := true }, out := { s.gpio.out with dio := false } } } := by
    intro s
    cases hst : s.far.status <;>
      simp [State.runMicros, Micro.run, Action.run, State.emit, Gpio.apply, Lines.set, FarEnd.observe, FarEnd.see, hst]
  have hpre : ∀ s : State, s.runMicros (withPre [.clearRxb] (bitIndices.flatMap recvCell)) =
      ({ s with work := { s.work with rxb := 0 } } : State).runMicros (bitIndices.flatMap recvCell) := by
    intro s
    simp [bitIndices, recvCell, withPre, Micro.run, Transfer.run]
  have hcells : ∀ s : State, s.gpio.dir.dio = false → s.gpio.out.dio = true →
      s.runMicros (bitIndices.flatMap recvCell) =
      { s with
        history := ((s.answers 0).flatMap (recvCellEvents s.cfg.tSettle)).reverse ++ s.history
        gpio := { s.gpio with out := { s.gpio.out with clk := true } }
        work := { s.work with biti := 7,
                              rxb := setBit (setBit (setBit (setBit (setBit (setBit (setBit (setBit s.work.rxb
                                0 (s.answer 0)) 1 (s.answer 1)) 2 (s.answer 2)) 3 (s.answer 3)) 4 (s.answer 4))
                                5 (s.answer 5)) 6 (s.answer 6)) 7 (s.answer 7) }
        env := s.env.drop 8
        draws := s.draws + 8
        far := s.far.takeBits ((s.answers 0).map .rx) } := by
    intro s hd ho
    have ha : ∀ (n : Nat) (h : List Event) (g : Gpio) (w : Work) (f : FarEnd),
        State.answer { s with history := h, gpio := g, work := w, env := s.env.drop n, draws := s.draws + n, far := f } 0
          = s.answer n := fun n h g w f => answer_after s n 0 _ rfl _ rfl rfl
    have cell : ∀ (n : Nat) (i : BitVec 3) (h : List Event) (w : Work) (f : FarEnd),
        ({ s with history := h, gpio := { s.gpio with out := { s.gpio.out with clk := true } }, work := w,
                  env := s.env.drop n, draws := s.draws + n, far := f } : State).runMicros (recvCell i) =
        { s with history := (recvCellEvents s.cfg.tSettle (s.answer n)).reverse ++ h,
                 gpio := { s.gpio with out := { s.gpio.out with clk := true } },
                 work := { w with biti := i, rxb := setBit w.rxb i.toNat (s.answer n) },
                 env := s.env.drop (n + 1), draws := s.draws + (n + 1), far := f.takeBit (.rx (s.answer n)) } := by
      intro n i h w f
      rw [recvCell_run i _ (by simpa using hd) (by simpa using ho)]
      simp [ha, Nat.add_assoc]
    have c0 := recvCell_run 0 s hd ho
    have hd1 : s.env.tail = s.env.drop 1 := by simp
    rw [hd1] at c0
    simp only [bitIndices, List.flatMap_cons, List.flatMap_nil, List.append_nil, runMicros_append, c0, cell]
    simp [State.answers, List.range_succ, FarEnd.takeBits]
  have hb : s.byteReceived 0 = setBit (setBit (setBit (setBit (setBit (setBit (setBit (setBit 0
      0 (s.answer 0)) 1 (s.answer 1)) 2 (s.answer 2)) 3 (s.answer 3)) 4 (s.answer 4)) 5 (s.answer 5))
      6 (s.answer 6)) 7 (s.answer 7) := by
    rw [setBit_chain]
    simp [State.byteReceived, State.answers, List.range_succ]
  rw [recvMicros, runMicros_append, runMicros_append, hopen, hpre, hcells _ rfl rfl, hclose, hb]
  simp [State.answers, State.answer, recvEvents]

/-! Frames (30_encoding.md R85). -/

theorem fopenMicros_run (s : State) : s.runMicros fopenMicros = s.emit (.setOut .stb false) := rfl

theorem fcloseMicros_run (s : State) : s.runMicros fcloseMicros = s.emit (.setOut .stb true) := rfl

/-- The strobe falls in a bus that is ready: a frame opens. -/
theorem see_open (s : State) (hs : s.far.status = .following) (ho : s.gpio.out.stb = true) :
    s.far.observe s.cfg s.gpio (.setOut .stb false) = { s.far with frame := some ⟨[], []⟩ } := by
  simp [FarEnd.observe, FarEnd.see, hs, ho]

/-- The strobe rises with a whole number of bytes: the frame is received. -/
theorem see_close (c : Params) (g : Gpio) (f : FarEnd) (items : List Item) (hs : f.status = .following)
    (hf : f.frame = some ⟨items, []⟩) : f.observe c g (.setOut .stb true) = f.receive c items := by
  simp [FarEnd.observe, FarEnd.see, hs, hf, FarEnd.close]

/-- The state after frames, and, for each of the GPIO bits and the far end, what it is. -/
theorem commandMicros_run (b : Byte) (s : State) :
    s.runMicros (commandMicros b) =
      { s with
        history := (commandEvents b).reverse ++ s.history
        gpio := { s.gpio with out := ⟨true, true, b.getLsbD 7⟩ }
        work := { s.work with txb := b, biti := 7 }
        far := (s.runMicros (commandMicros b)).far } := by
  simp [commandMicros, runMicros_append, fopenMicros_run, fcloseMicros_run, sendMicros_run, State.emit, Gpio.apply,
    Lines.set, commandEvents]

theorem writeFrameMicros_run (b d : Byte) (s : State) :
    s.runMicros (writeFrameMicros b d) =
      { s with
        history := (writeFrameEvents b d).reverse ++ s.history
        gpio := { s.gpio with out := ⟨true, true, d.getLsbD 7⟩ }
        work := { s.work with txb := d, biti := 7 }
        far := (s.runMicros (writeFrameMicros b d)).far } := by
  simp [writeFrameMicros, runMicros_append, fopenMicros_run, fcloseMicros_run, sendMicros_run, State.emit, Gpio.apply,
    Lines.set, writeFrameEvents]

/-- 20_memory.md R66: a ready bus delivers a command frame to the far end as `[TX(b)]`. -/
theorem commandMicros_far (b : Byte) (s : State) (hd : s.gpio.dir.dio = true) (ho : s.gpio.out.stb = true)
    (hs : s.far.status = .following) :
    (s.runMicros (commandMicros b)).far = FarEnd.receive s.cfg [.tx b] { s.far with frame := some ⟨[.tx b], []⟩ } := by
  have h1 := takeBits_tx { s.far with frame := some ⟨[], []⟩ } [] (bitsOf b) (by simp [bitsOf]) (by simpa using hs) rfl
  rw [byteOfBits_bitsOf] at h1
  simp only [commandMicros, runMicros_append, fopenMicros_run, fcloseMicros_run, sendMicros_run]
  simp only [State.emit, Gpio.apply, Lines.set, see_open s hs ho, hd, if_true, h1, List.nil_append]
  rw [see_close _ _ _ [.tx b] (by simpa using hs) (by simp)]

/-- 20_memory.md R66: a ready bus delivers a write frame as `[TX(b), TX(d)]`. -/
theorem writeFrameMicros_far (b d : Byte) (s : State) (hd : s.gpio.dir.dio = true) (ho : s.gpio.out.stb = true)
    (hs : s.far.status = .following) :
    (s.runMicros (writeFrameMicros b d)).far =
      FarEnd.receive s.cfg [.tx b, .tx d] { s.far with frame := some ⟨[.tx b, .tx d], []⟩ } := by
  have h1 := takeBits_tx { s.far with frame := some ⟨[], []⟩ } [] (bitsOf b) (by simp [bitsOf]) (by simpa using hs) rfl
  have h2 := takeBits_tx { s.far with frame := some ⟨[.tx b], []⟩ } [.tx b] (bitsOf d) (by simp [bitsOf])
    (by simpa using hs) rfl
  rw [byteOfBits_bitsOf] at h1 h2
  simp only [List.nil_append] at h1
  simp only [writeFrameMicros, runMicros_append, fopenMicros_run, fcloseMicros_run, sendMicros_run]
  simp only [State.emit, Gpio.apply, Lines.set, see_open s hs ho, hd, if_true, h1, h2, List.cons_append, List.nil_append]
  rw [see_close _ _ _ [.tx b, .tx d] (by simpa using hs) (by simp)]

/-! The commands of the wire (30_encoding.md R86, 20_memory.md R68). -/

theorem and_full (x : Byte) : x &&& 255#8 = x := by
  rw [show (255#8) = BitVec.allOnes 8 from rfl, BitVec.and_allOnes]

theorem wireOpOf_auto (c : Params) : wireOpOf c c.cmdDataAuto = some .dataAuto := by
  simp [wireOpOf, wireTable, and_full]

theorem wireOpOf_readKeys (c : Params) (h : c.legal) : wireOpOf c c.cmdDataReadKeys = some .dataReadKeys := by
  have := h.2.2.1.1
  simp [wireOpOf, wireTable, List.find?, and_full, beq_eq_false_iff_ne.2 this.symm]

theorem wireOpOf_fixed (c : Params) (h : c.legal) : wireOpOf c c.cmdDataFixed = some .dataFixed := by
  have h1 := h.2.2.1.2.1
  have h2 := h.2.2.1.2.2
  simp [wireOpOf, wireTable, List.find?, and_full, beq_eq_false_iff_ne.2 h1.symm,
    beq_eq_false_iff_ne.2 h2.symm]

theorem or_low4 (x : Byte) (a : BitVec 4) (h : x &&& 0x0F = 0) :
    (x ||| a.setWidth 8) &&& 0xF0 = x ∧ (x ||| a.setWidth 8).setWidth 4 = a := by
  revert a; revert x; decide +kernel

theorem or_low3 (x : Byte) (l : BitVec 3) (h : x &&& 0x07 = 0) :
    (x ||| l.setWidth 8) &&& 0xF8 = x ∧ (x ||| l.setWidth 8).setWidth 3 = l ∧
    (x ||| l.setWidth 8) &&& 0xF0 = x &&& 0xF0 := by
  revert l; revert x; decide +kernel

theorem wireOpOf_addr (c : Params) (h : c.legal) (a : BitVec 4) : wireOpOf c (setAddressByte c a) = some .addr := by
  obtain ⟨_, ⟨ha, _⟩, _, ⟨h1, h2, h3, _⟩, _⟩ := h
  have hm := (or_low4 c.cmdAddr a ha).1
  have n1 : setAddressByte c a ≠ c.cmdDataAuto := fun e => h1 (by rw [← e]; exact hm)
  have n2 : setAddressByte c a ≠ c.cmdDataReadKeys := fun e => h2 (by rw [← e]; exact hm)
  have n3 : setAddressByte c a ≠ c.cmdDataFixed := fun e => h3 (by rw [← e]; exact hm)
  have hm' : setAddressByte c a &&& 240#8 = c.cmdAddr := hm
  simp [wireOpOf, wireTable, List.find?, and_full, beq_eq_false_iff_ne.2 n1,
    beq_eq_false_iff_ne.2 n2, beq_eq_false_iff_ne.2 n3, hm']

theorem wireOpOf_display (c : Params) (h : c.legal) (l : BitVec 3) :
    wireOpOf c (displayControlByte c l) = some .displayOn := by
  obtain ⟨_, ⟨_, hd⟩, _, ⟨_, _, _, h4⟩, ⟨h1, h2, h3⟩, _⟩ := h
  obtain ⟨hm, _, hm2⟩ := or_low3 c.cmdDisplayOn l hd
  have n1 : displayControlByte c l ≠ c.cmdDataAuto := fun e => h1 (by rw [← e]; exact hm)
  have n2 : displayControlByte c l ≠ c.cmdDataReadKeys := fun e => h2 (by rw [← e]; exact hm)
  have n3 : displayControlByte c l ≠ c.cmdDataFixed := fun e => h3 (by rw [← e]; exact hm)
  have hm' : displayControlByte c l &&& 248#8 = c.cmdDisplayOn := hm
  have hm4 : displayControlByte c l &&& 240#8 ≠ c.cmdAddr := by
    have : displayControlByte c l &&& 240#8 = c.cmdDisplayOn &&& 0xF0 := hm2
    rw [this]; exact h4
  simp [wireOpOf, wireTable, List.find?, and_full, beq_eq_false_iff_ne.2 n1,
    beq_eq_false_iff_ne.2 n2, beq_eq_false_iff_ne.2 n3, hm', beq_eq_false_iff_ne.2 hm4]

/-- 20_memory.md R68: what each frame does, the parameters being legal. -/
theorem receive_auto (c : Params) (f : FarEnd) : f.receive c [.tx c.cmdDataAuto] = f.dataAuto := by
  simp [FarEnd.receive, decodeWire, wireOpOf_auto]

theorem receive_fixed (c : Params) (h : c.legal) (f : FarEnd) : f.receive c [.tx c.cmdDataFixed] = f.dataFixed := by
  simp [FarEnd.receive, decodeWire, wireOpOf_fixed c h]

theorem receive_display (c : Params) (h : c.legal) (l : BitVec 3) (f : FarEnd) :
    f.receive c [.tx (displayControlByte c l)] = f.displayOn l := by
  have := (or_low3 c.cmdDisplayOn l h.2.1.2).2.1
  have e : (displayControlByte c l).setWidth 3 = l := this
  simp [FarEnd.receive, decodeWire, wireOpOf_display c h, e]

theorem receive_write (c : Params) (h : c.legal) (a : BitVec 4) (d : Byte) (f : FarEnd) (hf : f.announced = true) :
    f.receive c [.tx (setAddressByte c a), .tx d] = f.store a d := by
  have := (or_low4 c.cmdAddr a h.2.1.1).2
  have e : (setAddressByte c a).setWidth 4 = a := this
  simp [FarEnd.receive, cursorOf, decodeWire, wireOpOf_addr c h, FarEnd.mode, hf, e]

theorem receive_keys (c : Params) (h : c.legal) (k : KeyBytes) (f : FarEnd) :
    f.receive c [.tx c.cmdDataReadKeys, .rx k.k0, .rx k.k1, .rx k.k2, .rx k.k3] = f.readKeys k := by
  simp [FarEnd.receive, decodeWire, wireOpOf_readKeys c h]

/-! A register write (41_command_protocol.md R132, R133). -/

/-- The state after WRREG, but for the far end. -/
theorem wrregMicros_run (a : Nat) (d : Byte) (s : State) (ha : a ≤ 15) :
    s.runMicros (wrregMicros s.cfg a d) =
      { s with
        history := (wrregEvents s.cfg a d).reverse ++ s.history
        gpio := { s.gpio with out := ⟨true, true, d.getLsbD 7⟩ }
        work := { s.work with txb := d, biti := 7 }
        far := (s.runMicros (wrregMicros s.cfg a d)).far } := by
  have hb : setAddressByte s.cfg (BitVec.ofNat 4 a) = s.cfg.cmdAddr ||| BitVec.ofNat 8 a := by
    unfold setAddressByte
    congr 1
    have : a < 16 := by omega
    interval_cases a <;> rfl
  rw [wrregMicros, runMicros_append, commandMicros_run, writeFrameMicros_run]
  simp [wrregEvents, hb]

/-- The far end after WRREG on a ready bus: `mem[a] <- d`, nothing else known changes, no frame is open. -/
theorem wrregMicros_far (a : Nat) (d : Byte) (s : State) (h : s.ready) (ha : a ≤ 15) :
    (s.runMicros (wrregMicros s.cfg a d)).far =
      { s.far with mem := Memory.write s.far.mem a d, announced := false, frame := none } := by
  obtain ⟨⟨_, hg, ho, _⟩, hc, hs, hf⟩ := h
  have hd : s.gpio.dir.dio = true := by rw [hg]
  have h1 := commandMicros_run s.cfg.cmdDataFixed s
  rw [commandMicros_far _ s hd ho hs, receive_fixed _ hc] at h1
  rw [wrregMicros, runMicros_append, h1]
  rw [writeFrameMicros_far _ _ _ (by simpa using hd) rfl (by simpa [FarEnd.dataFixed] using hs)]
  rw [receive_write _ hc _ _ _ (by simp [FarEnd.dataFixed])]
  have : (BitVec.ofNat 4 a).toNat = a := by simp; omega
  simp [FarEnd.store, FarEnd.dataFixed, this]

/-- The bus is ready again after WRREG. -/
theorem wrregMicros_ready (a : Nat) (d : Byte) (s : State) (h : s.ready) (ha : a ≤ 15) :
    (s.runMicros (wrregMicros s.cfg a d)).ready := by
  have h1 := wrregMicros_run a d s ha
  rw [wrregMicros_far a d s h ha] at h1
  rw [h1]
  obtain ⟨⟨hq, hg, ho, hk⟩, hc, hs, hf⟩ := h
  refine ⟨⟨hq, ?_, rfl, rfl⟩, hc, hs, rfl⟩
  exact hg

/-! The read frame (41_command_protocol.md R135, R136). -/

theorem keyByteMicros_run (j : BitVec 2) (s : State) :
    s.runMicros (keyByteMicros j) = ({ s with work := { s.work with bytei := j } } : State).runMicros recvMicros := by
  simp [keyByteMicros, recvMicros, withPre, Micro.run, Transfer.run]

theorem mergeKeyByteMicros_run (j : BitVec 2) (s : State) :
    s.runMicros (withPre [.mergeKeys] (keyByteMicros j)) =
      ({ s with work := { s.work with
          keys := s.work.keys ||| (s.work.rxb.setWidth 32 <<< (8 * s.work.bytei.toNat))
          bytei := j } } : State).runMicros recvMicros := by
  simp [keyByteMicros, recvMicros, withPre, Micro.run, Transfer.run]

/-- The samples of a RECV that begins after `8 * n` samples. -/
theorem answers_after (s : State) (n : Nat) (t : State) (he : t.env = s.env.drop (8 * n))
    (hd : t.draws = s.draws + 8 * n) : t.answers 0 = s.answers n := by
  unfold State.answers
  refine List.map_congr_left (fun i _ => ?_)
  rw [answer_after s (8 * n) _ _ rfl t he hd]
  simp

theorem byteReceived_after (s : State) (n : Nat) (t : State) (he : t.env = s.env.drop (8 * n))
    (hd : t.draws = s.draws + 8 * n) : t.byteReceived 0 = s.byteReceived n := by
  unfold State.byteReceived
  rw [answers_after s n t he hd]

/-- The state after the read frame, but for the far end; and the bits the far end sees in it. -/
theorem readKeysMicros_run (s : State) :
    s.runMicros (readKeysMicros s.cfg) =
      { s with
        history := (readKeysEvents s.cfg (s.answers 0) (s.answers 1) (s.answers 2) (s.answers 3)).reverse ++ s.history
        gpio := { s.gpio with dir := { s.gpio.dir with dio := true }, out := ⟨true, true, false⟩ }
        work := ⟨s.cfg.cmdDataReadKeys, s.byteReceived 3, 7, s.maskReceived, 3⟩
        env := s.env.drop 32
        draws := s.draws + 32
        far := (s.runMicros (readKeysMicros s.cfg)).far } ∧
    (s.runMicros (readKeysMicros s.cfg)).far =
      FarEnd.observe s.cfg
        { s.gpio with dir := { s.gpio.dir with dio := true }, out := ⟨false, true, false⟩ } (.setOut .stb true)
        (((((if s.gpio.dir.dio then
            (s.far.observe s.cfg s.gpio (.setOut .stb false)).takeBits ((bitsOf s.cfg.cmdDataReadKeys).map .tx)
          else s.far.observe s.cfg s.gpio (.setOut .stb false)).takeBits ((s.answers 0).map .rx)).takeBits
          ((s.answers 1).map .rx)).takeBits ((s.answers 2).map .rx)).takeBits ((s.answers 3).map .rx)) := by
  have hopen : ∀ s : State, s.runMicros (withPre [.clearKeys] fopenMicros) =
      ({ s with work := { s.work with keys := 0 } } : State).emit (.setOut .stb false) := fun _ => rfl
  have hclose : ∀ s : State, s.runMicros (withPre [.mergeKeys] fcloseMicros) =
      ({ s with work := { s.work with
          keys := s.work.keys ||| (s.work.rxb.setWidth 32 <<< (8 * s.work.bytei.toNat)) } } : State).emit
        (.setOut .stb true) := fun _ => rfl
  have a1 : ∀ (h : List Event) (g : Gpio) (w : Work) (f : FarEnd),
      State.answers { s with history := h, gpio := g, work := w, env := s.env.drop 8, draws := s.draws + 8, far := f } 0
        = s.answers 1 := fun h g w f => answers_after s 1 _ rfl rfl
  have a2 : ∀ (h : List Event) (g : Gpio) (w : Work) (f : FarEnd),
      State.answers { s with history := h, gpio := g, work := w, env := s.env.drop 16, draws := s.draws + 16, far := f } 0
        = s.answers 2 := fun h g w f => answers_after s 2 _ rfl rfl
  have a3 : ∀ (h : List Event) (g : Gpio) (w : Work) (f : FarEnd),
      State.answers { s with history := h, gpio := g, work := w, env := s.env.drop 24, draws := s.draws + 24, far := f } 0
        = s.answers 3 := fun h g w f => answers_after s 3 _ rfl rfl
  have a0 : ∀ (h : List Event) (g : Gpio) (w : Work) (f : FarEnd),
      State.answers { s with history := h, gpio := g, work := w, far := f } 0 = s.answers 0 := fun _ _ _ _ => rfl
  constructor
  · simp only [readKeysMicros, runMicros_append, hopen, hclose, sendMicros_run, keyByteMicros_run,
      mergeKeyByteMicros_run, recvMicros_run]
    simp [State.emit, Gpio.apply, Lines.set, State.byteReceived, a0, a1, a2, a3, List.drop_drop, Nat.add_assoc,
      State.maskReceived, readKeysEvents]
  · simp only [readKeysMicros, runMicros_append, hopen, hclose, sendMicros_run, keyByteMicros_run,
      mergeKeyByteMicros_run, recvMicros_run]
    simp [State.emit, Gpio.apply, Lines.set, a0, a1, a2, a3, List.drop_drop, Nat.add_assoc]
    rfl

/-- 20_memory.md R66, R68: a ready bus delivers the read frame, and the far end's key bytes are the bytes received. -/
theorem readKeysMicros_far (s : State) (h : s.ready) :
    (s.runMicros (readKeysMicros s.cfg)).far =
      { s.far with
        keys := some ⟨s.byteReceived 0, s.byteReceived 1, s.byteReceived 2, s.byteReceived 3⟩
        announced := false
        frame := none } := by
  obtain ⟨⟨_, hg, ho, _⟩, hc, hs, hf⟩ := h
  have hd : s.gpio.dir.dio = true := by rw [hg]
  have hl : ∀ j, (s.answers j).length = 8 := fun j => by simp [State.answers]
  rw [(readKeysMicros_run s).2, hd, if_pos rfl, see_open s hs ho]
  rw [takeBits_tx _ [] (bitsOf s.cfg.cmdDataReadKeys) (by simp [bitsOf]) (by simpa using hs) rfl, byteOfBits_bitsOf]
  rw [takeBits_rx _ _ _ (hl 0) (by simpa using hs) rfl, takeBits_rx _ _ _ (hl 1) (by simpa using hs) rfl,
    takeBits_rx _ _ _ (hl 2) (by simpa using hs) rfl, takeBits_rx _ _ _ (hl 3) (by simpa using hs) rfl]
  rw [see_close _ _ _ _ (by simpa using hs) rfl]
  exact receive_keys s.cfg hc ⟨s.byteReceived 0, s.byteReceived 1, s.byteReceived 2, s.byteReceived 3⟩ _

end Sys2Proof.Machine
end

