-- ==== Sys2Proof/Laws/PerInstr.lean ====
section
/-! SUPPORT. Statements about every instruction as syntax, one lemma per constructor. `Encoded`: the encoding of an
instruction is a host request whose operation code is assigned and whose operand tuple has the operation's shape
(30_encoding.md R81, R82), or the one or two transmitted bytes of a frame (R85, R86). -/

namespace Sys2Proof.Laws

def Encoded.Statement (i : Instr) : Prop :=
  ∀ c : Params, match encode c i with
    | .host op args => ∃ o : HostOp, hostOpOf op = some o ∧ hostCode o = op ∧ assemble o args = some i
    | .wire bytes => bytes.length = 1 ∨ bytes.length = 2

theorem Encoded.init : Encoded.Statement .init := fun _ => ⟨.init, rfl, rfl, rfl⟩

theorem Encoded.fopen : Encoded.Statement .fopen := fun _ => ⟨.fopen, rfl, rfl, rfl⟩

theorem Encoded.fclose : Encoded.Statement .fclose := fun _ => ⟨.fclose, rfl, rfl, rfl⟩

theorem Encoded.send (b : Byte) : Encoded.Statement (.send b) := fun _ => ⟨.send, rfl, rfl, rfl⟩

theorem Encoded.recv : Encoded.Statement .recv := fun _ => ⟨.recv, rfl, rfl, rfl⟩

theorem Encoded.command (b : Byte) : Encoded.Statement (.command b) := fun _ => ⟨.command, rfl, rfl, rfl⟩

theorem Encoded.wrreg (a : Nat) (d : Byte) : Encoded.Statement (.wrreg a d) := fun _ => ⟨.wrreg, rfl, rfl, rfl⟩

theorem Encoded.dctl (l : Nat) : Encoded.Statement (.dctl l) := fun _ => ⟨.dctl, rfl, rfl, rfl⟩

theorem Encoded.getbuttons : Encoded.Statement .getbuttons := fun _ => ⟨.getbuttons, rfl, rfl, rfl⟩

theorem Encoded.digreg (p : Nat) : Encoded.Statement (.digreg p) := fun _ => ⟨.digreg, rfl, rfl, rfl⟩

theorem Encoded.ledreg (p : Nat) : Encoded.Statement (.ledreg p) := fun _ => ⟨.ledreg, rfl, rfl, rfl⟩

theorem Encoded.setdots (m : Byte) : Encoded.Statement (.setdots m) := fun _ => ⟨.setdots, rfl, rfl, rfl⟩

theorem Encoded.setbyte (p : Nat) (v : Byte) : Encoded.Statement (.setbyte p v) := fun _ => ⟨.setbyte, rfl, rfl, rfl⟩

theorem Encoded.setdigit (p g : Nat) : Encoded.Statement (.setdigit p g) := fun _ => ⟨.setdigit, rfl, rfl, rfl⟩

theorem Encoded.clear : Encoded.Statement .clear := fun _ => ⟨.clear, rfl, rfl, rfl⟩

theorem Encoded.clearleds : Encoded.Statement .clearleds := fun _ => ⟨.clearleds, rfl, rfl, rfl⟩

theorem Encoded.setleds (g r : Byte) : Encoded.Statement (.setleds g r) := fun _ => ⟨.setleds, rfl, rfl, rfl⟩

theorem Encoded.setled (p col : Nat) : Encoded.Statement (.setled p col) := fun _ => ⟨.setled, rfl, rfl, rfl⟩

theorem Encoded.setnumber (value offset : Nat) (al : Align) : Encoded.Statement (.setnumber value offset al) := fun _ => ⟨.setnumber, rfl, rfl, rfl⟩

theorem Encoded.setnumberpad (value offset width : Nat) (pad : Byte) : Encoded.Statement (.setnumberpad value offset width pad) := fun _ => ⟨.setnumberpad, rfl, rfl, rfl⟩

theorem Encoded.setnumberhex (value offset width : Nat) (pad : Byte) : Encoded.Statement (.setnumberhex value offset width pad) := fun _ => ⟨.setnumberhex, rfl, rfl, rfl⟩

theorem Encoded.setchar (p : Nat) (ch : Byte) : Encoded.Statement (.setchar p ch) := fun _ => ⟨.setchar, rfl, rfl, rfl⟩

theorem Encoded.setchars (text : List Byte) (offset : Nat) : Encoded.Statement (.setchars text offset) := fun _ => ⟨.setchars, rfl, rfl, rfl⟩

theorem Encoded.cmdDataAuto : Encoded.Statement .cmdDataAuto := fun _ => .inl rfl

theorem Encoded.cmdDataReadKeys : Encoded.Statement .cmdDataReadKeys := fun _ => .inl rfl

theorem Encoded.cmdDataFixed : Encoded.Statement .cmdDataFixed := fun _ => .inl rfl

theorem Encoded.cmdAddr (a : BitVec 4) (d : Byte) : Encoded.Statement (.cmdAddr a d) := fun _ => .inr rfl

theorem Encoded.cmdDisplayOn (l : BitVec 3) : Encoded.Statement (.cmdDisplayOn l) := fun _ => .inl rfl

end Sys2Proof.Laws
end

