-- ==== Sys2Proof/Laws/Runs.lean ====
section
/-! SUPPORT. What a run of several operations leaves behind: `perform` where nothing is refused, sequences of register
writes, the expansions of the pseudo-operations, and small steps. -/

namespace Sys2Proof.Machine

/-- An operation that is not refused, made while the sequencer is idle, ends in this state (10_state.md R32). -/
theorem perform_next (p : Plan) (s : State) (hs : s.seq = .idle) (hp : p.stop = none) :
    perform p s = .next ((s.runMicros p.micros).complete p.finish) := (perform_next_iff p s _).2 ⟨hs, hp, rfl⟩

/-- Bits that pass in an open frame change no register, control or key byte (20_memory.md R66). -/
theorem takeBits_keeps (ws : List WireBit) (f : FarEnd) : (f.takeBits ws).mem = f.mem ∧ (f.takeBits ws).ctl = f.ctl ∧ (f.takeBits ws).keys = f.keys ∧ (f.takeBits ws).status = f.status := by
  induction ws generalizing f with
  | nil => simp [FarEnd.takeBits]
  | cons w ws ih =>
    have : f.takeBits (w :: ws) = (f.takeBit w).takeBits ws := rfl
    rw [this]
    have h := ih (f.takeBit w)
    have : (f.takeBit w).mem = f.mem ∧ (f.takeBit w).ctl = f.ctl ∧ (f.takeBit w).keys = f.keys ∧ (f.takeBit w).status = f.status := by
      unfold FarEnd.takeBit; split <;> simp
    simp [h, this]

/-- The first bit of a byte is its bit 0 (20_memory.md R55). -/
theorem byteOfBits_getLsbD (vs : List Bool) (h : vs.length = 8) (i : Nat) (hi : i < 8) : (byteOfBits vs).getLsbD i = vs[i]! := by
  match vs, h with
  | [v0, v1, v2, v3, v4, v5, v6, v7], _ =>
    have : ∀ v0 v1 v2 v3 v4 v5 v6 v7 : Bool, ∀ i : Fin 8, (byteOfBits [v0, v1, v2, v3, v4, v5, v6, v7]).getLsbD i = [v0, v1, v2, v3, v4, v5, v6, v7][i]! := by decide
    exact this _ _ _ _ _ _ _ _ ⟨i, hi⟩

/-- Bit `i` of the `j`-th byte received is a sample (40_bus_transport.md R116). -/
theorem byteReceived_bit (s : State) (j i : Nat) (hi : i < 8) : (s.byteReceived j).getLsbD i = s.answer (8 * j + i) := by
  rw [State.byteReceived, byteOfBits_getLsbD _ (by simp [State.answers]) i hi]
  simp [State.answers, hi]

/-- A frame the reference model accepts stores at the cursor only (20_memory.md R68). -/
theorem receive_keeps (c : Params) (items : List Item) (f : FarEnd) 
    (hst : (f.receive c items).status = .following) (a : Nat)
    (ha : ∀ x, cursorOf c items = some x → a ≠ x.toNat) :
    Memory.read (f.receive c items).mem a = Memory.read f.mem a := by
  revert hst
  unfold FarEnd.receive
  split
  · split <;> simp [FarEnd.dataAuto, FarEnd.dataFixed, FarEnd.displayOn, FarEnd.refuse]
  · split
    · next x h1 _ => intro _; exact memory_read_write_other _ _ _ _ (ha _ h1)
    · simp [FarEnd.refuse]
  · split <;> simp [FarEnd.readKeys, FarEnd.refuse]
  · simp [FarEnd.refuse]

/-- The plan of an operation depends on the parameters and `DOTS` alone. -/
theorem plan_congr (i : Instr) {s t : State} (h1 : t.cfg = s.cfg) (h2 : t.dots = s.dots) : plan i t = plan i s := by
  cases i <;> simp [plan, h1, h2]

/-- Everything a step of a busy machine can answer with (10_state.md R31): the event of its position and the next position,
the end of the operation, or, past the last event, the end alone. -/
theorem advance_next {p : Plan} {i : Instr} {k : Nat} {s t : State} (h : advance p i k s = .next t) :
    (∃ m, p.micros[k]? = some m ∧ (p.stop ≠ none ∨ k + 1 < p.micros.length) ∧
      t = { m.run s with seq := .busy i (k + 1) }) ∨
    (∃ m, p.micros[k]? = some m ∧ p.stop = none ∧ k + 1 = p.micros.length ∧ t = (m.run s).complete p.finish) ∨
    (p.micros[k]? = none ∧ p.stop = none ∧ t = s.complete p.finish) := by
  unfold advance at h
  split at h
  · next m r hm hr => cases h; exact .inl ⟨m, hm, .inl (by simp [hr]), rfl⟩
  · next m hm hr =>
    have := (List.getElem?_eq_some_iff.1 hm).1
    split at h
    · next hk => cases h; exact .inl ⟨m, hm, .inr hk, rfl⟩
    · next hk => cases h; exact .inr (.inl ⟨m, hm, hr, by omega, rfl⟩)
  · cases h
  · next hm hr => cases h; exact .inr (.inr ⟨hm, hr, rfl⟩)

/-- No micro-operation reads the sequencer position. -/
theorem micro_run_seq (m : Micro) (s : State) (q : Seq) : m.run { s with seq := q } = { m.run s with seq := q } := by
  have hpre : ∀ (ts : List Transfer) (s : State), ts.foldl (fun s t => t.run s) { s with seq := q } = { ts.foldl (fun s t => t.run s) s with seq := q } := by
    intro ts
    induction ts with
    | nil => intro s; rfl
    | cons t ts ih =>
      intro s
      simp only [List.foldl_cons]
      rw [show t.run { s with seq := q } = { t.run s with seq := q } by cases t <;> rfl, ih]
  unfold Micro.run
  rw [hpre]
  cases m.act <;> rfl

/-- No run of micro-operations reads the sequencer position. -/
theorem runMicros_seq (ms : List Micro) (s : State) (q : Seq) :
    State.runMicros ms { s with seq := q } = { s.runMicros ms with seq := q } := by
  induction ms generalizing s with
  | nil => rfl
  | cons m ms ih => simp only [runMicros_cons, micro_run_seq, ih]

/-- A busy machine performs its events one by one (10_state.md R31). -/
theorem runEvents_busy (i : Instr) (s : State) (k : Nat) (hq : s.seq = .busy i k) (n : Nat)
    (hn : k + n < (plan i s).micros.length ∨ (k + n ≤ (plan i s).micros.length ∧ (plan i s).stop ≠ none)) :
    runEvents n (.next s) = .next { s.runMicros (((plan i s).micros.drop k).take n) with seq := .busy i (k + n) } := by
  induction n generalizing s k with
  | zero => cases s; simp at hq; simp [runEvents, hq]
  | succ n ih =>
    have hk : k < (plan i s).micros.length := by omega
    have hm : (plan i s).micros[k]? = some ((plan i s).micros[k]) := List.getElem?_eq_getElem hk
    generalize (plan i s).micros[k] = m at hm
    obtain ⟨f1, f2, _⟩ := micro_run_frame m s
    have e := plan_congr i (s := s) (t := { m.run s with seq := .busy i (k + 1) }) f1 f2
    have hstep : stepEvent s = .next { m.run s with seq := .busy i (k + 1) } := by
      cases hst : (plan i s).stop with
      | some r => simp [stepEvent, hq, resume, advance, hm, hst]
      | none =>
        have : k + 1 < (plan i s).micros.length := by
          rcases hn with h | h
          · omega
          · exact absurd hst h.2
        simp [stepEvent, hq, resume, advance, hm, hst, this]
    rw [runEvents, hstep, ih _ (k + 1) rfl (by rw [e]; rcases hn with h | h; exact .inl (by omega); exact .inr ⟨by omega, h.2⟩), e]
    have : ((plan i s).micros.drop k) = m :: (plan i s).micros.drop (k + 1) := by
      rw [List.drop_eq_getElem_cons hk]
      congr 1
      rw [List.getElem?_eq_getElem hk] at hm; simpa using hm
    rw [this, List.take_succ_cons, runMicros_cons, runMicros_seq]
    simp [Nat.add_assoc, Nat.add_comm 1 n]

/-- Small steps one after another. -/
theorem runEvents_add (n m : Nat) (o) : runEvents (n + m) o = runEvents m (runEvents n o) := by
  induction n generalizing o with
  | zero => simp [runEvents]
  | succ n ih =>
    rw [Nat.add_right_comm]
    cases o with
    | next s => simp only [runEvents, ih]
    | fault f => cases f
    | refused r => cases m <;> simp [runEvents]

/-- Register writes one after another: the state after them, but for the far end and the working registers. -/
theorem registerWrites_run (f : Nat → Nat) (g : Nat → Byte) : ∀ (ps : List Nat), (∀ p ∈ ps, f p ≤ 15) → ∀ s : State,
    ∃ (o : Lines) (w : Work), s.runMicros (ps.flatMap (fun p => wrregMicros s.cfg (f p) (g p))) =
      { s with
        history := (ps.flatMap (fun p => wrregEvents s.cfg (f p) (g p))).reverse ++ s.history
        gpio := { s.gpio with out := o }
        work := w
        far := (s.runMicros (ps.flatMap (fun p => wrregMicros s.cfg (f p) (g p)))).far } ∧
      (ps = [] → o = s.gpio.out) ∧ (∀ h : ps ≠ [], o = ⟨true, true, (g (ps.getLast h)).getLsbD 7⟩) := by
  intro ps
  induction ps with
  | nil => intro _ s; exact ⟨s.gpio.out, s.work, rfl, fun _ => rfl, fun h => absurd rfl h⟩
  | cons p ps ih =>
    intro hp s
    have h1 := wrregMicros_run (f p) (g p) s (hp p (by simp))
    generalize hs1 : s.runMicros (wrregMicros s.cfg (f p) (g p)) = s1 at h1
    obtain ⟨o, w, h2, h3, h4⟩ := ih (fun q hq => hp q (by simp [hq])) s1
    have hc : s1.cfg = s.cfg := by rw [h1]
    have hh : s1.history = (wrregEvents s.cfg (f p) (g p)).reverse ++ s.history := by rw [h1]
    have hgp : s1.gpio = { s.gpio with out := ⟨true, true, (g p).getLsbD 7⟩ } := by rw [h1]
    have hrun : s.runMicros (List.flatMap (fun p => wrregMicros s.cfg (f p) (g p)) (p :: ps)) =
        s1.runMicros (ps.flatMap (fun p => wrregMicros s1.cfg (f p) (g p))) := by
      rw [List.flatMap_cons, runMicros_append, hs1, hc]
    refine ⟨o, w, ?_, by simp, ?_⟩
    · rw [hrun]
      refine h2.trans ?_
      rw [hc, hh, hgp]
      rw [h1]
      simp
    · intro h
      cases ps with
      | nil => have := h3 rfl; rw [this, hgp]; rfl
      | cons q qs => rw [h4 (by simp)]; rfl

/-- Register writes one after another on a ready bus: what they store (41_command_protocol.md R133). -/
theorem registerWrites_far (f : Nat → Nat) (g : Nat → Byte) : ∀ (ps : List Nat), (∀ p ∈ ps, f p ≤ 15) → ∀ s : State, s.ready →
    (s.runMicros (ps.flatMap (fun p => wrregMicros s.cfg (f p) (g p)))).ready ∧
    (s.runMicros (ps.flatMap (fun p => wrregMicros s.cfg (f p) (g p)))).far.mem = ps.foldl (fun m p => Memory.write m (f p) (g p)) s.far.mem ∧
    s.sameControl (s.runMicros (ps.flatMap (fun p => wrregMicros s.cfg (f p) (g p)))) := by
  intro ps
  induction ps with
  | nil => intro _ s h; exact ⟨h, rfl, sameControl_of_eq id rfl rfl⟩
  | cons p ps ih =>
    intro hp s h
    have hr := wrregMicros_ready (f p) (g p) s h (hp p (by simp))
    have hf := wrregMicros_far (f p) (g p) s h (hp p (by simp))
    obtain ⟨a, b, c⟩ := ih (fun q hq => hp q (by simp [hq])) _ hr
    have hc := (runMicros_frame (wrregMicros s.cfg (f p) (g p)) s).1
    rw [hc] at a b c
    rw [List.flatMap_cons, runMicros_append]
    refine ⟨a, ?_, ?_⟩
    · rw [b, hf]; rfl
    · exact sameControl_of_eq (fun _ => a.2.2.1) (c.1.trans (by rw [hf])) (c.2.1.trans (by rw [hf]))

/-- The pin configuration of INIT (41_command_protocol.md R137). -/
theorem pinMicros_run (s : State) : s.runMicros pinMicros =
   { s with history := pinEvents.reverse ++ s.history, gpio := { s.gpio with dir := ⟨true, true, true⟩, out := ⟨true, true, false⟩}, far := (s.runMicros pinMicros).far } := by
  obtain ⟨c, ⟨d, o, r1, r2⟩, dots, w, q, hh, r, rq, env, dr, f⟩ := s
  rfl

/-- With INIT's pin configuration the reference model follows the bus (70_reset_and_hazards.md R211). -/
theorem pinMicros_far (s : State) (h : s.far.status = .unspecified ∨ (s.far.status = .following ∧ s.far.frame = none)) :
   (s.runMicros pinMicros).far = s.far.follow := by
  obtain ⟨c, ⟨d, o, r1, r2⟩, dots, w, q, hh, r, rq, env, dr, ⟨st, m, ct, k, an, fr⟩⟩ := s
  rcases h with h | ⟨h, h2⟩
  · simp only at h; subst h; rfl
  · simp only at h h2; subst h h2; rfl

/-- Requests none of which is refused: all their events (43_formatter.md R176). -/
theorem sequence_of_accepted (ps : List Plan) (h : ∀ p ∈ ps, p.stop = none) :
    Plan.sequence ps = ⟨ps.flatMap (·.micros), .nothing, none⟩ := by
  induction ps with
  | nil => rfl
  | cons p ps ih =>
    simp only [Plan.sequence, h p (by simp), ih (fun q hq => h q (by simp [hq]))]
    rfl

/-- The first refused request stops a sequence, after the events of those before it (43_formatter.md R176). -/
theorem sequence_of_refused (ps : List Plan) (p : Plan) (qs : List Plan) (h : ∀ q ∈ ps, q.stop = none) (r : Refusal) (hp : p.stop = some r) :
    Plan.sequence (ps ++ p :: qs) = ⟨ps.flatMap (·.micros) ++ p.micros, .nothing, some r⟩ := by
  induction ps with
  | nil => simp [Plan.sequence, hp]
  | cons q ps ih =>
    simp only [List.cons_append, Plan.sequence, h q (by simp), ih (fun q hq => h q (by simp [hq]))]
    simp

/-- A request of an expansion that is in range is one register write (42_display_state.md R155, R156). -/
theorem planRequest_in (c : Params) (dots : Byte) (q : DigitRequest) (h : q.inRange = true) :
    q.position ≤ 7 ∧
    planRequest c dots q = ⟨wrregMicros c (2 * q.position) (requestByte c dots q), .nothing, none⟩ := by
  cases q with
  | digit p g =>
    simp [DigitRequest.inRange] at h
    exact ⟨h.1, by simp [planRequest, planSetdigit, glyphStop_ok h.2, planSetbyte, positionStop_ok h.1]; rfl⟩
  | byte p v =>
    simp [DigitRequest.inRange] at h
    exact ⟨h, by simp [planRequest, planSetbyte, positionStop_ok h]; rfl⟩

/-- A request of an expansion that is out of range is refused. -/
theorem planRequest_out (c : Params) (dots : Byte) (q : DigitRequest) (h : q.inRange = false) :
    ∃ r, planRequest c dots q = Plan.refusal r := by
  cases q with
  | digit p g =>
    simp only [DigitRequest.inRange, Bool.and_eq_false_iff, decide_eq_false_iff_not] at h
    simp only [planRequest, planSetdigit]
    split
    · exact ⟨_, rfl⟩
    · next hg =>
      have : g ≤ 15 := by simp [glyphStop] at hg; exact hg
      have hp : ¬ p ≤ 7 := by rcases h with h | h; exact h; exact absurd this h
      exact ⟨_, by simp [planSetbyte, positionStop, hp]; rfl⟩
  | byte p v =>
    simp only [DigitRequest.inRange, decide_eq_false_iff_not] at h
    exact ⟨_, by simp [planRequest, planSetbyte, positionStop, h]; rfl⟩

/-- An expansion that is in range. -/
theorem planRequests_ok (c : Params) (dots : Byte) (rs : List DigitRequest) (h : rs.all (·.inRange) = true) :
    planRequests c dots rs = ⟨rs.flatMap (fun q => (planRequest c dots q).micros), .nothing, none⟩ := by
  unfold planRequests
  rw [sequence_of_accepted]
  · simp [List.flatMap_map]
  · intro p hp
    obtain ⟨q, hq, rfl⟩ := List.mem_map.1 hp
    rw [(planRequest_in c dots q (by simpa using List.all_eq_true.1 h q hq)).2]

/-- The requests of an expansion one after another: the state after them, but for the far end and the working registers. -/
theorem requests_run (dots : Byte) : ∀ (rs : List DigitRequest), rs.all (·.inRange) = true → ∀ s : State,
    ∃ (o : Lines) (w : Work), s.runMicros (rs.flatMap (fun q => (planRequest s.cfg dots q).micros)) =
      { s with
        history := (rs.flatMap (requestEvents s.cfg dots)).reverse ++ s.history
        gpio := { s.gpio with out := o }
        work := w
        far := (s.runMicros (rs.flatMap (fun q => (planRequest s.cfg dots q).micros))).far } ∧
      (rs = [] → o = s.gpio.out) ∧ ∀ q, rs.getLast? = some q → o = ⟨true, true, (requestByte s.cfg dots q).getLsbD 7⟩ := by
  intro rs
  induction rs with
  | nil => intro _ s; exact ⟨s.gpio.out, s.work, rfl, fun _ => rfl, by simp⟩
  | cons q rs ih =>
    intro h s
    simp at h
    obtain ⟨hp, e1⟩ := planRequest_in s.cfg dots q h.1
    have h1 := wrregMicros_run (2 * q.position) (requestByte s.cfg dots q) s (by omega)
    generalize hs1 : s.runMicros (wrregMicros s.cfg _ _) = s1 at h1
    obtain ⟨o, w, h2, h3, h4⟩ := ih (by simpa using h.2) s1
    have hc : s1.cfg = s.cfg := by rw [h1]
    have hh : s1.history = (wrregEvents s.cfg (2 * q.position) (requestByte s.cfg dots q)).reverse ++ s.history := by rw [h1]
    have hgp : s1.gpio = { s.gpio with out := ⟨true, true, (requestByte s.cfg dots q).getLsbD 7⟩ } := by rw [h1]
    refine ⟨o, w, ?_, by simp, ?_⟩
    · have hrun : s.runMicros (List.flatMap (fun q => (planRequest s.cfg dots q).micros) (q :: rs)) =
          s1.runMicros (rs.flatMap (fun q => (planRequest s1.cfg dots q).micros)) := by
        rw [List.flatMap_cons, runMicros_append, e1, hs1, hc]
      rw [hrun]
      refine h2.trans ?_
      rw [hc, hh, hgp, h1]
      simp [requestEvents]
    · intro q' hq'
      cases rs with
      | nil => simp at hq'; subst hq'; rw [h3 rfl, hgp]
      | cons q2 rs2 => rw [← hc]; exact h4 q' (by simpa using hq')

/-- The requests of an expansion on a ready bus: what they store (43_formatter.md). -/
theorem requests_far (dots : Byte) : ∀ (rs : List DigitRequest), rs.all (·.inRange) = true → ∀ s : State, s.ready →
    (s.runMicros (rs.flatMap (fun q => (planRequest s.cfg dots q).micros))).ready ∧
    (s.runMicros (rs.flatMap (fun q => (planRequest s.cfg dots q).micros))).far.mem =
      rs.foldl (storeRequest s.cfg dots) s.far.mem ∧
    s.sameControl (s.runMicros (rs.flatMap (fun q => (planRequest s.cfg dots q).micros))) := by
  intro rs
  induction rs with
  | nil => intro _ s h; exact ⟨h, rfl, sameControl_of_eq id rfl rfl⟩
  | cons q rs ih =>
    intro h s hrd
    simp at h
    obtain ⟨hp, e1⟩ := planRequest_in s.cfg dots q h.1
    have h1 := wrregMicros_far _ (requestByte s.cfg dots q) s hrd (show 2 * q.position ≤ 15 by omega)
    have h2 := wrregMicros_ready _ (requestByte s.cfg dots q) s hrd (show 2 * q.position ≤ 15 by omega)
    obtain ⟨x, y, z⟩ := ih (by simpa using h.2) _ h2
    have hc := (runMicros_frame (wrregMicros s.cfg (2 * q.position) (requestByte s.cfg dots q)) s).1
    rw [hc] at x y z
    rw [List.flatMap_cons, runMicros_append, e1]
    refine ⟨x, ?_, ?_⟩
    · rw [y, h1]; rfl
    · exact sameControl_of_eq (fun _ => x.2.2.1) (z.1.trans (by rw [h1])) (z.2.1.trans (by rw [h1]))

/-- The plan of a pseudo-operation is that of its expansion (30_encoding.md R98). -/
theorem plan_pseudo (i : Instr) (s : State) (h : isPseudo i = true) : plan i s = planRequests s.cfg s.dots (expansionOf s.cfg i) := by
  cases i <;> first | rfl | simp [isPseudo] at h

/-- A request of an expansion that is out of range is refused by the name of an operand of it that is. -/
theorem planRequest_stop (c : Params) (dots : Byte) (q : DigitRequest) :
    (q.inRange = true ∧ (planRequest c dots q).stop = none) ∨
    (q.inRange = false ∧ ∃ r, (planRequest c dots q).stop = some r ∧ q.refusedAs r) := by
  cases q with
  | digit p g =>
    by_cases hp : p ≤ 7 <;> by_cases hg : g ≤ 15 <;>
      simp [DigitRequest.inRange, planRequest, planSetdigit, planSetbyte, positionStop, glyphStop, Plan.refusal,
        DigitRequest.refusedAs, hp, hg] <;> omega
  | byte p v =>
    by_cases hp : p ≤ 7
    · simp [DigitRequest.inRange, planRequest, planSetbyte, positionStop, hp]
    · simp [DigitRequest.inRange, planRequest, planSetbyte, positionStop, Plan.refusal, DigitRequest.refusedAs, hp]
      omega

/-- The requests of an expansion are refused only for the first of them that is out of range, by the name of an operand of it
that is (43_formatter.md R176). -/
theorem planRequests_stop {c : Params} {dots : Byte} {rs : List DigitRequest} {r : Refusal}
    (h : (planRequests c dots rs).stop = some r) :
    ∃ before after q, rs = before ++ q :: after ∧ before.all (·.inRange) = true ∧ q.inRange = false ∧ q.refusedAs r := by
  induction rs with
  | nil => cases h
  | cons q rs ih =>
    simp only [planRequests, List.map_cons, Plan.sequence] at h
    rcases planRequest_stop c dots q with ⟨h1, h2⟩ | ⟨h1, r', h2, h3⟩
    · rw [h2] at h
      obtain ⟨before, after, q', e, h4, h5⟩ := ih h
      exact ⟨q :: before, after, q', by rw [e]; rfl, by simp [h1, h4], h5⟩
    · rw [h2] at h
      cases h
      exact ⟨[], rs, q, rfl, rfl, h1, h3⟩

/-- Everything a plan is refused for: an operand out of its domain, which the refusal names (60_exceptions.md R192). -/
theorem plan_stop {i : Instr} {s : State} {r : Refusal} (h : (plan i s).stop = some r) :
    isDefined s.cfg i = false ∧ refusedAs s.cfg r i := by
  by_cases hp : isPseudo i = true
  · rw [plan_pseudo i s hp] at h
    obtain ⟨before, after, q, e, h1, h2, h3⟩ := planRequests_stop h
    refine ⟨?_, ?_⟩
    · simp only [isDefined, hp, if_true, List.all_eq_false]
      exact ⟨q, by simp [e], by simp [h2]⟩
    · cases i <;> first | exact ⟨before, after, q, e, h1, h3⟩ | simp [isPseudo] at hp
  · have e : isDefined s.cfg i = i.wf := by simp [isDefined, hp]
    rw [e]
    cases i with
    | wrreg a d =>
      by_cases ha : a ≤ 15 <;> simp [plan, planWrreg, Plan.refusal, addressStop, ha] at h
      subst h; exact ⟨by simp [Instr.wf, ha], by simp [refusedAs]; omega⟩
    | dctl l =>
      by_cases ha : l ≤ 7 <;> simp [plan, planDctl, Plan.refusal, levelStop, ha] at h
      subst h; exact ⟨by simp [Instr.wf, ha], by simp [refusedAs]; omega⟩
    | digreg p =>
      by_cases ha : p ≤ 7 <;> simp [plan, planDigreg, Plan.refusal, positionStop, ha] at h
      subst h; exact ⟨by simp [Instr.wf, ha], by simp [refusedAs]; omega⟩
    | ledreg p =>
      by_cases ha : p ≤ 7 <;> simp [plan, planLedreg, Plan.refusal, positionStop, ha] at h
      subst h; exact ⟨by simp [Instr.wf, ha], by simp [refusedAs]; omega⟩
    | setbyte p v =>
      by_cases ha : p ≤ 7 <;> simp [plan, planSetbyte, Plan.refusal, positionStop, ha] at h
      subst h; exact ⟨by simp [Instr.wf, ha], by simp [refusedAs]; omega⟩
    | setdigit p g =>
      by_cases ha : p ≤ 7 <;> by_cases hg : g ≤ 15 <;>
        simp [plan, planSetdigit, planSetbyte, Plan.refusal, positionStop, glyphStop, ha, hg] at h <;>
        (subst h; exact ⟨by simp [Instr.wf, ha, hg], by simp [refusedAs]; omega⟩)
    | setled p col =>
      by_cases ha : p ≤ 7 <;> by_cases hg : col ≤ 3 <;>
        simp [plan, planSetled, Plan.refusal, positionStop, colourStop, ha, hg] at h <;>
        (subst h; exact ⟨by simp [Instr.wf, ha, hg], by simp [refusedAs]; omega⟩)
    | _ => first | exact absurd rfl hp | cases h

end Sys2Proof.Machine
end

