-- ==== Sys2Proof/Tests/Slice0.lean ====
section
/-! SUPPORT. Tests: the checks of WellFormed, decoding of words written out from 30_encoding.md R82 and R86, the vectors of
95_test_vectors.md (V<n>), and for each statement with hypotheses a witness that meets them. -/

namespace Sys2Proof.Tests

set_option Elab.async false

open Sys2Proof.Machine

/-! States for the tests. -/

/-- A bus as INIT leaves it, the reference far end following, no register written yet. -/
def ready : State :=
  { State.reset with
    gpio := ⟨⟨true, true, true⟩, ⟨true, true, false⟩, 0, 0⟩
    far := { FarEnd.reset with status := .following } }

/-- The same with a dot mask. -/
def dotted (m : Byte) : State := { ready with dots := m }

/-- The same with a frame open. -/
def inFrame (items : List Item) : State :=
  { ready with
    gpio := ⟨⟨true, true, true⟩, ⟨false, true, false⟩, 0, 0⟩
    far := { FarEnd.reset with status := .following, announced := true, frame := some ⟨items, []⟩ } }

/-- The same, the far end driving these bits. -/
def driven (bits : List Nat) : State := { ready with env := bits.map (fun b => some (b == 1)) }

/-- The machine at event `k` of an operation. -/
def busyAt (i : Instr) (k : Nat) : State := { ready with seq := .busy i k }

/-- The next state, where there is one. -/
def after (i : Instr) (s : State) : Option State :=
  match exec i s with
  | .next t => some t
  | .fault _ => none
  | .refused _ => none

/-- The refusal, where there is one. -/
def refusal (i : Instr) (s : State) : Option Refusal :=
  match exec i s with
  | .next _ => none
  | .fault _ => none
  | .refused r => some r

/-- The eight values written to the data line by an event list. -/
def dataBits (es : List Event) : List Bool :=
  es.filterMap (fun e => match e with
    | .setOut .dio v => some v
    | _ => none)

/-! WellFormed: an ill-formed term for each check. -/

theorem test_ill_formed_wrreg :
    Instr.wf (.wrreg 0x10 0) = false := by decide

theorem test_ill_formed_dctl :
    Instr.wf (.dctl 8) = false := by decide

theorem test_ill_formed_digreg :
    Instr.wf (.digreg 8) = false := by decide

theorem test_ill_formed_ledreg :
    Instr.wf (.ledreg 8) = false := by decide

theorem test_ill_formed_setbyte :
    Instr.wf (.setbyte 8 0) = false := by decide

theorem test_ill_formed_setdigit_position :
    Instr.wf (.setdigit 8 0) = false := by decide

theorem test_ill_formed_setdigit_glyph :
    Instr.wf (.setdigit 0 16) = false := by decide

theorem test_ill_formed_setled_position :
    Instr.wf (.setled 8 0) = false := by decide

theorem test_ill_formed_setled_colour :
    Instr.wf (.setled 0 4) = false := by decide

theorem test_ill_formed_setnumber :
    Instr.wf (.setnumber 7 8 .right) = false := by decide

theorem test_ill_formed_setnumberpad :
    Instr.wf (.setnumberpad 5 8 2 0x3F) = false := by decide

theorem test_ill_formed_setnumberhex :
    Instr.wf (.setnumberhex 5 8 2 0x3F) = false := by decide

theorem test_ill_formed_setchar :
    Instr.wf (.setchar 8 0x31) = false := by decide

theorem test_ill_formed_setchars :
    Instr.wf (.setchars [0x31] 8) = false := by decide

theorem test_well_formed_at_the_bounds :
    Instr.wf (.wrreg 0x0F 0xFF) && Instr.wf (.dctl 7) && Instr.wf (.setdigit 7 15) && Instr.wf (.setled 7 3) &&
    Instr.wf (.setchars [] 7) = true := by decide

theorem test_value_too_wide :
    Instr.valueFits defaultParams (.setnumber 0x100000000 0 .right) = false ∧
    Instr.valueFits defaultParams (.setnumberpad 0x100000000 0 1 0) = false ∧
    Instr.valueFits defaultParams (.setnumberhex 0x100000000 0 1 0) = false ∧
    Instr.valueFits defaultParams (.setnumberhex 0xFFFFFFFF 0 1 0) = true := by decide

/-! Decoding: one request per operation, written out from 30_encoding.md R82 and R86, and what it encodes to. -/

theorem test_decode_init :
    decodeRequest defaultParams (.host 0x00 []) = .ok (.init) ∧
    encode defaultParams (.init) = .host 0x00 [] := ⟨rfl, rfl⟩

theorem test_decode_fopen :
    decodeRequest defaultParams (.host 0x01 []) = .ok (.fopen) ∧
    encode defaultParams (.fopen) = .host 0x01 [] := ⟨rfl, rfl⟩

theorem test_decode_fclose :
    decodeRequest defaultParams (.host 0x02 []) = .ok (.fclose) ∧
    encode defaultParams (.fclose) = .host 0x02 [] := ⟨rfl, rfl⟩

theorem test_decode_send :
    decodeRequest defaultParams (.host 0x03 [.byte 0x44]) = .ok (.send 0x44) ∧
    encode defaultParams (.send 0x44) = .host 0x03 [.byte 0x44] := ⟨rfl, rfl⟩

theorem test_decode_recv :
    decodeRequest defaultParams (.host 0x04 []) = .ok (.recv) ∧
    encode defaultParams (.recv) = .host 0x04 [] := ⟨rfl, rfl⟩

theorem test_decode_command :
    decodeRequest defaultParams (.host 0x05 [.byte 0x8F]) = .ok (.command 0x8F) ∧
    encode defaultParams (.command 0x8F) = .host 0x05 [.byte 0x8F] := ⟨rfl, rfl⟩

theorem test_decode_wrreg :
    decodeRequest defaultParams (.host 0x06 [.nat 0x04, .byte 0x87]) = .ok (.wrreg 0x04 0x87) ∧
    encode defaultParams (.wrreg 0x04 0x87) = .host 0x06 [.nat 0x04, .byte 0x87] := ⟨rfl, rfl⟩

theorem test_decode_dctl :
    decodeRequest defaultParams (.host 0x07 [.nat 7]) = .ok (.dctl 7) ∧
    encode defaultParams (.dctl 7) = .host 0x07 [.nat 7] := ⟨rfl, rfl⟩

theorem test_decode_getbuttons :
    decodeRequest defaultParams (.host 0x08 []) = .ok (.getbuttons) ∧
    encode defaultParams (.getbuttons) = .host 0x08 [] := ⟨rfl, rfl⟩

theorem test_decode_digreg :
    decodeRequest defaultParams (.host 0x10 [.nat 5]) = .ok (.digreg 5) ∧
    encode defaultParams (.digreg 5) = .host 0x10 [.nat 5] := ⟨rfl, rfl⟩

theorem test_decode_ledreg :
    decodeRequest defaultParams (.host 0x11 [.nat 6]) = .ok (.ledreg 6) ∧
    encode defaultParams (.ledreg 6) = .host 0x11 [.nat 6] := ⟨rfl, rfl⟩

theorem test_decode_setdots :
    decodeRequest defaultParams (.host 0x20 [.byte 0xA5]) = .ok (.setdots 0xA5) ∧
    encode defaultParams (.setdots 0xA5) = .host 0x20 [.byte 0xA5] := ⟨rfl, rfl⟩

theorem test_decode_setbyte :
    decodeRequest defaultParams (.host 0x21 [.nat 2, .byte 0x07]) = .ok (.setbyte 2 0x07) ∧
    encode defaultParams (.setbyte 2 0x07) = .host 0x21 [.nat 2, .byte 0x07] := ⟨rfl, rfl⟩

theorem test_decode_setdigit :
    decodeRequest defaultParams (.host 0x22 [.nat 7, .nat 15]) = .ok (.setdigit 7 15) ∧
    encode defaultParams (.setdigit 7 15) = .host 0x22 [.nat 7, .nat 15] := ⟨rfl, rfl⟩

theorem test_decode_clear :
    decodeRequest defaultParams (.host 0x23 []) = .ok (.clear) ∧
    encode defaultParams (.clear) = .host 0x23 [] := ⟨rfl, rfl⟩

theorem test_decode_clearleds :
    decodeRequest defaultParams (.host 0x24 []) = .ok (.clearleds) ∧
    encode defaultParams (.clearleds) = .host 0x24 [] := ⟨rfl, rfl⟩

theorem test_decode_setleds :
    decodeRequest defaultParams (.host 0x25 [.byte 0x05, .byte 0x06]) = .ok (.setleds 0x05 0x06) ∧
    encode defaultParams (.setleds 0x05 0x06) = .host 0x25 [.byte 0x05, .byte 0x06] := ⟨rfl, rfl⟩

theorem test_decode_setled :
    decodeRequest defaultParams (.host 0x26 [.nat 7, .nat 2]) = .ok (.setled 7 2) ∧
    encode defaultParams (.setled 7 2) = .host 0x26 [.nat 7, .nat 2] := ⟨rfl, rfl⟩

theorem test_decode_setnumber :
    decodeRequest defaultParams (.host 0x30 [.nat 1024, .nat 0, .align .left]) = .ok (.setnumber 1024 0 .left) ∧
    encode defaultParams (.setnumber 1024 0 .left) = .host 0x30 [.nat 1024, .nat 0, .align .left] := ⟨rfl, rfl⟩

theorem test_decode_setnumberpad :
    decodeRequest defaultParams (.host 0x31 [.nat 1234, .nat 7, .nat 4, .byte 0x3F]) = .ok (.setnumberpad 1234 7 4 0x3F) ∧
    encode defaultParams (.setnumberpad 1234 7 4 0x3F) = .host 0x31 [.nat 1234, .nat 7, .nat 4, .byte 0x3F] := ⟨rfl, rfl⟩

theorem test_decode_setnumberhex :
    decodeRequest defaultParams (.host 0x32 [.nat 0xA5, .nat 6, .nat 2, .byte 0x3F]) = .ok (.setnumberhex 0xA5 6 2 0x3F) ∧
    encode defaultParams (.setnumberhex 0xA5 6 2 0x3F) = .host 0x32 [.nat 0xA5, .nat 6, .nat 2, .byte 0x3F] := ⟨rfl, rfl⟩

theorem test_decode_setchar :
    decodeRequest defaultParams (.host 0x33 [.nat 0, .byte 0x41]) = .ok (.setchar 0 0x41) ∧
    encode defaultParams (.setchar 0 0x41) = .host 0x33 [.nat 0, .byte 0x41] := ⟨rfl, rfl⟩

theorem test_decode_setchars :
    decodeRequest defaultParams (.host 0x34 [.text [0x41, 0x42], .nat 3]) = .ok (.setchars [0x41, 0x42] 3) ∧
    encode defaultParams (.setchars [0x41, 0x42] 3) = .host 0x34 [.text [0x41, 0x42], .nat 3] := ⟨rfl, rfl⟩

theorem test_decode_cmdDataAuto :
    decodeRequest defaultParams (.wire [0b01000000]) = .ok (.cmdDataAuto) ∧
    encode defaultParams (.cmdDataAuto) = .wire [0b01000000] := ⟨rfl, rfl⟩

theorem test_decode_cmdDataReadKeys :
    decodeRequest defaultParams (.wire [0b01000010]) = .ok (.cmdDataReadKeys) ∧
    encode defaultParams (.cmdDataReadKeys) = .wire [0b01000010] := ⟨rfl, rfl⟩

theorem test_decode_cmdDataFixed :
    decodeRequest defaultParams (.wire [0b01000100]) = .ok (.cmdDataFixed) ∧
    encode defaultParams (.cmdDataFixed) = .wire [0b01000100] := ⟨rfl, rfl⟩

theorem test_decode_cmdAddr :
    decodeRequest defaultParams (.wire [0b11000101, 0x87]) = .ok (.cmdAddr 5 0x87) ∧
    encode defaultParams (.cmdAddr 5 0x87) = .wire [0b11000101, 0x87] := ⟨rfl, rfl⟩

theorem test_decode_cmdDisplayOn :
    decodeRequest defaultParams (.wire [0b10001011]) = .ok (.cmdDisplayOn 3) ∧
    encode defaultParams (.cmdDisplayOn 3) = .wire [0b10001011] := ⟨rfl, rfl⟩

theorem test_decode_words :
    decodeTableWord 8 0b00000011 = some (.send 0) ∧ decodeTableWord 8 0b00100010 = some (.setdigit 0 0) ∧
    decodeTableWord 8 0b00110001 = some (.setnumberpad 0 0 0 0) ∧ decodeTableWord 8 0b11001111 = some (.cmdAddr 15 0) := by decide

/-- V60-1, 30_encoding.md R94. -/
theorem test_decode_unassigned :
    decodeRequest defaultParams (.host 0x09 []) = .error (.unassignedOp 0x09) := rfl

/-- 30_encoding.md R81. -/
theorem test_decode_shape :
    decodeRequest defaultParams (.host 0x06 [.byte 1]) = .error (.operandShape 0x06) := rfl

/-- 20_memory.md R69. -/
theorem test_decode_unknown_frame :
    decodeRequest defaultParams (.wire [0x00]) = .error .unknownFrame := rfl

/-! Bus Transport. -/

/-- V40-1. -/
theorem test_fopen :
    (after .fopen ready).map (·.trace) = some [.setOut .stb false] := by decide +kernel

/-- V40-1. -/
theorem test_fclose_idle :
    (after .fclose ready).map (fun t => (t.trace, t.gpio)) = some ([.setOut .stb true], ready.gpio) := by decide +kernel

/-- 20_memory.md R68. -/
theorem test_fclose_stores :
    (after .fclose (inFrame [.tx 0xC4, .tx 0x87])).map (·.far.mem) = some [(0x04, 0x87)] := by decide +kernel

/-- V40-2. -/
theorem test_send_data_line :
    (after (.send 0xA5) ready).map (fun t => dataBits t.trace) =
    some [true, false, true, false, false, true, false, true] := by decide +kernel

/-- V40-6. -/
theorem test_send_outside_frame :
    (after (.send 0x8F) ready).map (fun t => (t.trace.length, t.gpio.out.stb, t.far)) = some (24, true, ready.far) := by decide +kernel

/-- V40-4. -/
theorem test_recv_vector :
    (after .recv (driven [1, 0, 0, 0, 1, 0, 0, 0])).map (fun t => (t.result, t.trace.length, t.gpio.dir.dio, t.gpio.out)) =
    some (some (.byte 0x11), 36, true, ⟨true, true, false⟩) := by decide +kernel

/-- V40-5. -/
theorem test_recv_pull_up :
    (after .recv { ready with env := List.replicate 8 none }).map (·.result) = some (some (.byte 0xFF)) := by decide +kernel

/-! Command Protocol. -/

/-- V41-1. -/
theorem test_command_vector :
    (after (.command 0x40) ready).map (fun t => (t.trace.length, dataBits t.trace)) =
    some (26, [false, false, false, false, false, false, true, false]) := by decide +kernel

/-- V41-2. -/
theorem test_command_refused_frame :
    (after (.command 0x00) ready).map (·.far.status) = some .refused := by decide +kernel

/-- V41-3. -/
theorem test_wrreg_vector :
    (after (.wrreg 0x04 0x87) ready).map (fun t => (t.trace.length, t.far.mem, t.gpio.out.dio)) = some (76, [(0x04, 0x87)], true) := by decide +kernel

/-- V41-4. -/
theorem test_wrreg_refused :
    refusal (.wrreg 0x10 0x00) ready = some (.addressOutOfRange 0x10) := by decide +kernel

/-- V41-5. -/
theorem test_dctl_vector :
    (after (.dctl 3) ready).map (fun t => (dataBits t.trace, t.far.ctl)) =
    some ([true, true, false, true, false, false, false, true], some 3) := by decide +kernel

/-- V41-5. -/
theorem test_dctl_refused :
    refusal (.dctl 8) ready = some (.levelOutOfRange 8) := by decide +kernel

/-- V41-6. -/
theorem test_getbuttons_vector :
    (after .getbuttons (driven ([1, 0, 0, 0, 0, 0, 0, 0] ++ [0, 0, 0, 0, 1, 0, 0, 0] ++ List.replicate 16 0))).map
      (fun t => (t.result, t.trace.length, t.far.keys)) =
    some (some (.mask 0x00001001), 170, some ⟨0x01, 0x10, 0x00, 0x00⟩) := by decide +kernel

/-- V41-8. -/
theorem test_getbuttons_last_sample :
    (after .getbuttons (driven (List.replicate 31 0 ++ [1]))).map (·.result) = some (some (.mask 0x80000000)) := by decide +kernel

/-- P1. -/
theorem test_init_vector :
    (after .init State.reset).map (fun t => (t.trace.length, t.gpio.dir, t.gpio.out, t.dots)) =
    some (1274, ⟨true, true, true⟩, ⟨true, true, false⟩, 0x00) := by decide +kernel

/-- P1. -/
theorem test_init_far_end :
    (after .init State.reset).map (fun t => (t.far.mem, t.far.ctl)) = some ((List.range 16).map (fun a => (a, 0x00)), some 7) := by decide +kernel

/-! Register Map and Display State. -/

/-- V42-1, S1. -/
theorem test_digreg :
    (after (.digreg 7) ready).map (fun t => (t.result, t.trace)) = some (some (.address 0x0E), []) := by decide +kernel

/-- V42-1. -/
theorem test_digreg_refused :
    refusal (.digreg 8) ready = some (.positionOutOfRange 8) := by decide +kernel

/-- V42-1, S1. -/
theorem test_ledreg :
    (after (.ledreg 7) ready).map (fun t => (t.result, t.trace)) = some (some (.address 0x0F), []) := by decide +kernel

/-- V42-1. -/
theorem test_ledreg_refused :
    refusal (.ledreg 8) ready = some (.positionOutOfRange 8) := by decide +kernel

/-- V42-2. -/
theorem test_setdots :
    (after (.setdots 0xA5) ready).map (fun t => (t.dots, t.trace, t.far)) = some (0xA5, [], ready.far) := by decide +kernel

/-- V42-3. -/
theorem test_setbyte_point :
    (after (.setbyte 2 0x07) (dotted 0x04)).map (·.far.mem) = some [(0x04, 0x87)] := by decide +kernel

/-- V42-3. -/
theorem test_setbyte_other_point :
    (after (.setbyte 3 0x07) (dotted 0x04)).map (·.far.mem) = some [(0x06, 0x07)] := by decide +kernel

/-- V42-4. -/
theorem test_setdigit_point :
    (after (.setdigit 7 15) (dotted 0x80)).map (·.far.mem) = some [(0x0E, 0xF1)] := by decide +kernel

/-- V42-4. -/
theorem test_setdigit_refused :
    refusal (.setdigit 0 16) ready = some (.glyphOutOfRange 16) := by decide +kernel

/-- V42-5. -/
theorem test_clear :
    (after .clear (dotted 0xFF)).map (fun t => (t.trace.length, t.far.mem, t.dots)) =
    some (608, [(0, 0), (2, 0), (4, 0), (6, 0), (8, 0), (10, 0), (12, 0), (14, 0)], 0xFF) := by decide +kernel

/-- V42-6. -/
theorem test_clearleds :
    (after .clearleds ready).map (fun t => (t.trace.length, t.far.mem)) =
    some (608, [(1, 0), (3, 0), (5, 0), (7, 0), (9, 0), (11, 0), (13, 0), (15, 0)]) := by decide +kernel

/-- V42-7. -/
theorem test_setleds :
    (after (.setleds 0x05 0x06) ready).map (·.far.mem) =
    some [(1, 1), (3, 2), (5, 3), (7, 0), (9, 0), (11, 0), (13, 0), (15, 0)] := by decide +kernel

/-- V42-8. -/
theorem test_setled :
    (after (.setled 7 2) ready).map (·.far.mem) = some [(0x0F, 0x02)] := by decide +kernel

/-- V42-8. -/
theorem test_setled_refused :
    refusal (.setled 0 4) ready = some (.colourOutOfRange 4) := by decide +kernel

/-! Number/Text Formatter. -/

/-- V43-2. -/
theorem test_setnumber_left :
    expansionOf defaultParams (.setnumber 1024 0 .left) = [.digit 3 4, .digit 2 2, .digit 1 0, .digit 0 1] := by decide +kernel

/-- V43-1. -/
theorem test_setnumber_dropped :
    expansionOf defaultParams (.setnumber 12345 2 .right) = [.digit 2 5, .digit 1 4, .digit 0 3] := by decide +kernel

/-- V43-4. -/
theorem test_setnumberpad :
    expansionOf defaultParams (.setnumberpad 5 1 4 0x3F) = [.digit 1 5, .byte 0 0x3F] := by decide +kernel

/-- V43-5. -/
theorem test_setnumberpad_zero :
    expansionOf { defaultParams with padZero := .padOnly } (.setnumberpad 0 7 2 0x00) = [.byte 7 0x00, .byte 6 0x00] := by decide +kernel

/-- V43-6. -/
theorem test_setnumberhex :
    expansionOf defaultParams (.setnumberhex 0x10 7 3 0x00) = [.digit 7 0, .digit 6 1, .byte 5 0x00] := by decide +kernel

/-- V43-6 with the font of entry G4. -/
theorem test_setnumberhex_stores :
    (after (.setnumberhex 0xA5 7 2 0x3F) ready).map (·.far.mem) = some [(0x0C, 0x77), (0x0E, 0x6D)] := by decide +kernel

/-- V43-8. -/
theorem test_setchar_lookup_first :
    expansionOf { defaultParams with charLookup := [(0x2D, 0x40), (0x41, 0x77)] } (.setchar 0 0x41) = [.byte 0 0x77] := by decide +kernel

/-- V43-7. -/
theorem test_setchar_refused :
    refusal (.setchar 2 0x67) ready = some (.glyphOutOfRange 16) := by decide +kernel

/-- V43-9. -/
theorem test_setchars :
    expansionOf defaultParams (.setchars [0x41, 0x3F, 0x42] 0) = [.digit 0 10, .digit 2 11] := by decide +kernel

/-- V43-9. -/
theorem test_setchars_refused :
    refusal (.setchars [0x62, 0x61, 0x64] 6) ready = some (.positionOutOfRange 8) := by decide +kernel

/-! The commands of the wire. -/

/-- 20_memory.md R68. -/
theorem test_cmdDataAuto :
    (after .cmdDataAuto ready).map (·.far) = some ready.far := by decide +kernel

/-- 20_memory.md R68. -/
theorem test_cmdDataFixed :
    (after .cmdDataFixed ready).map (·.far.mode) = some (some .fixed) := by decide +kernel

/-- P5. -/
theorem test_cmdAddr :
    (after (.cmdAddr 14 0xFF) { ready with far := { ready.far with announced := true } }).map (·.far.mem) = some [(0x0E, 0xFF)] := by decide +kernel

/-- P5. -/
theorem test_cmdAddr_unannounced :
    (after (.cmdAddr 14 0xFF) ready).map (·.far.status) = some .refused := by decide +kernel

/-- V41-5. -/
theorem test_cmdDisplayOn :
    (after (.cmdDisplayOn 7) ready).map (fun t => (t.far.ctl, t.trace.length)) = some (some 7, 26) := by decide +kernel

/-- V41-8. -/
theorem test_cmdDataReadKeys :
    (after .cmdDataReadKeys (driven (List.replicate 31 0 ++ [1]))).map (·.far.keys) = some (some ⟨0, 0, 0, 0x80⟩) := by decide +kernel

/-! The step. -/

/-- 10_state.md R31: the first event of a busy machine. -/
theorem test_step_busy : step (busyAt (.send 0x44) 0) =
    .next { busyAt (.send 0x44) 1 with
      history := [.setOut .clk false], gpio := ⟨⟨true, true, true⟩, ⟨true, false, false⟩, 0, 0⟩,
      work := ⟨0x44, 0, 0, 0, 0⟩ } := rfl

/-- The first step after reset runs the instruction placed there (log entry 7). -/
theorem test_step_fetches : step (State.reset.withFetchWord 8 0x01) = exec .fopen State.reset := rfl

/-! Witnesses: for each statement with hypotheses, states and operands that meet them, each clause at a boundary. -/

theorem reset_idle : State.reset.seq = .idle := rfl

theorem ready_ready : ready.ready := by decide

theorem ready_idleConfig : ready.idleConfig := by decide

theorem witness_DecodeEncodeAgree :
    defaultParams.legal := by decide

theorem witness_StepRunsTheRequest :
    ∃ (s : State) (r : Request) (rs : List Request) (i : Instr), s.seq = .idle ∧ s.requests = r :: rs ∧
      decodeRequest s.cfg r = .ok i := ⟨{ ready with requests := [.host 0x06 [.nat 15, .byte 0xFF]] }, _, _, _, rfl, rfl, rfl⟩

theorem witness_IdleMachineWaits :
    State.reset.seq = .idle ∧ State.reset.requests = [] := ⟨rfl, rfl⟩

theorem witness_BusyStepPerformsOneEvent_inside :
    ∃ (s : State) (i : Instr) (k : Nat) (m : Micro), s.seq = .busy i k ∧ (plan i s).stop = none ∧
      (plan i s).micros[k]? = some m ∧ k + 1 < (plan i s).micros.length := ⟨busyAt (.send 0x80) 22, _, _, _, rfl, rfl, rfl, by decide⟩

theorem witness_BusyStepPerformsOneEvent_last :
    ∃ (s : State) (i : Instr) (k : Nat) (m : Micro), s.seq = .busy i k ∧ (plan i s).stop = none ∧
      (plan i s).micros[k]? = some m ∧ k + 1 = (plan i s).micros.length := ⟨busyAt (.send 0x80) 23, _, _, _, rfl, rfl, rfl, by decide⟩

theorem witness_SmallStepsAgreeWithBigStep :
    (∃ t, exec (.send 0x80) ready = .next t) ∧ ∃ t, exec (.setdots 0xFF) ready = .next t := ⟨⟨_, rfl⟩, ⟨_, rfl⟩⟩

theorem witness_RefusalsAreTheListed :
    ready.seq = .idle ∧ 7 < 8 ∧ 0x0F < 0x10 ∧ (7 ≤ 7 ∧ 15 < 16) ∧ (7 ≤ 7 ∧ 3 < 4) ∧ (busyAt .fopen 0).seq ≠ .idle := by decide

theorem witness_RefusalsAreTheListed_pseudo :
    ∃ (s : State) (i : Instr), s.seq = .idle ∧ isPseudo i = true ∧
      (expansionOf s.cfg i).any (fun r => !r.inRange) = true := ⟨ready, .setnumber 7 8 .right, by decide⟩

theorem witness_RefusalsAreTheListed_unassigned :
    ∃ (s : State) (op : Byte) (args : List Operand) (rs : List Request), s.seq = .idle ∧
      s.requests = .host op args :: rs ∧ ∀ o : HostOp, hostCode o ≠ op := ⟨{ ready with requests := [.host 0x09 []] }, _, _, _, rfl, rfl, fun o => by cases o <;> decide⟩

theorem witness_DefinedRequestsComplete :
    ready.seq = .idle ∧ isDefined ready.cfg (.wrreg 0x0F 0xFF) = true ∧ isDefined ready.cfg (.setdigit 7 15) = true ∧
      isDefined ready.cfg (.setnumber 42 6 .left) = true ∧ isDefined ready.cfg (.setchar 8 0x3F) = true := by decide

theorem witness_OnlyListedCausesRefuse :
    (∃ t, exec .fopen ready = .next t) ∧ exec .fopen (busyAt .fopen 0) = .refused .requestWhileBusy ∧
      exec (.dctl 8) ready = .refused (.levelOutOfRange 8) ∧ step (busyAt (.digreg 8) 0) = .refused (.positionOutOfRange 8) ∧
      exec (.setchars [0x61, 0x67] 6) ready = .refused (.glyphOutOfRange 16) ∧
      step { ready with requests := [.host 0x09 []] } = .refused (.unassignedOp 0x09) := ⟨⟨_, rfl⟩, rfl, rfl, rfl, rfl, rfl⟩

theorem witness_EventWritesOneBit :
    ready.gpio.dir.get .dio = true ∧ ready.gpio.out.get .dio = false ∧ Line.clk ≠ Line.stb ∧ Line.dio ≠ Line.stb := by decide

theorem witness_ForeignPortBitsKept :
    (∃ t, step (busyAt .fopen 0) = .next t) ∧ lineAt (busyAt .fopen 0).cfg 3 = none := ⟨⟨_, rfl⟩, by decide⟩

theorem witness_LevelOfLine :
    ready.gpio.dir.get .dio = true ∧
      (∃ s : State, s.gpio.dir.get .dio = false ∧ s.drive .dio = some true) ∧
      (∃ s : State, s.gpio.dir.get .dio = false ∧ s.drive .dio = none ∧ s.gpio.out.get .dio = true) ∧
      ∃ s : State, s.gpio.dir.get .dio = false ∧ s.drive .dio = none ∧ s.gpio.out.get .dio = false := ⟨rfl,
    ⟨{ State.reset with env := [some true] }, rfl, rfl⟩,
    ⟨{ State.reset with env := [none], gpio := ⟨⟨true, true, false⟩, ⟨true, true, true⟩, 0, 0⟩ }, rfl, rfl, rfl⟩,
    ⟨{ State.reset with env := [none] }, rfl, rfl, rfl⟩⟩

theorem witness_StrobeAndClockNeverReleased :
    (∃ t, step (busyAt .recv 0) = .next t) ∧ (busyAt .recv 0).gpio.dir.stb = true ∧ (busyAt .recv 0).gpio.dir.clk = true := ⟨⟨_, rfl⟩, rfl, rfl⟩

theorem witness_FopenLowersStrobe :
    ready.seq = .idle ∧ ready.far.status = .following ∧ ready.gpio.out.stb = true ∧
      State.reset.seq = .idle ∧ State.reset.gpio.out.stb = false ∧
      ready.gpio.dir.stb = true ∧ State.reset.gpio.dir.stb = false := by decide

theorem witness_FcloseRaisesStrobe :
    ready.gpio.out.stb = true ∧ ∃ (s t : State) (c : BitVec 4), s.seq = .idle ∧ exec .fclose s = .next t ∧
      s.far.status = .following ∧
      t.far.status = s.far.status ∧ s.far.cursor s.cfg = some c ∧ ready.far.frame = none := ⟨rfl, inFrame [.tx 0xCF, .tx 0x80], _, 15, rfl, rfl, rfl, rfl, by decide, rfl⟩

theorem witness_SendTransmitsByte :
    State.reset.seq = .idle ∧ State.reset.far.frame = none := ⟨rfl, rfl⟩

theorem witness_SendShowsByteOnLines :
    ∃ (s t : State) (es : List Event), s.gpio.dir.clk = true ∧ s.gpio.dir.dio = true ∧ s.gpio.out.clk = true ∧
      exec (.send 0x80) s = .next t ∧ t.trace = s.trace ++ es := ⟨ready, _, _, rfl, rfl, rfl, rfl, rfl⟩

theorem witness_RecvReceivesByte :
    State.reset.seq = .idle := rfl

theorem witness_RecvUndrivenIsAllOnes :
    ∃ s t : State, (∀ j, j < 8 → s.env[j]? = some none) ∧ exec .recv s = .next t := ⟨{ ready with env := List.replicate 8 none }, _, by decide, rfl⟩

theorem witness_FrameGrowsByItems :
    ∃ (s : State) (items : List Item), s.far.status = .following ∧ s.far.frame = some ⟨items, []⟩ ∧
      s.gpio.dir.dio = true ∧ (∃ t, exec (.send 0x87) s = .next t) ∧
      ∃ t b, exec .recv s = .next t ∧ t.result = some (.byte b) := ⟨inFrame [.tx 0x42], _, rfl, rfl, rfl, ⟨_, rfl⟩, ⟨_, _, rfl, rfl⟩⟩

theorem witness_CommandSendsOneFrame :
    ready.ready ∧ wireOpOf ready.cfg 0x00 = none ∧ (after (.command 0x8F) ready).map (·.far.status) = some .following := by decide +kernel

theorem witness_WrregSendsTwoFrames :
    ready.seq = .idle ∧ 0x0F ≤ 0x0F := by decide

theorem witness_SingleWritesStoreOneRegister :
    ready.ready ∧ (Instr.wrreg 0x0F 0xFF = .wrreg 0x0F 0xFF ∧ 0x0F ≤ 0x0F) ∧
      (7 ≤ 7 ∧ 0x0E = 2 * 7 ∧ (0xFF : Byte) = digitByte (dotted 0xFF).dots 7 0x7F) ∧
      (7 ≤ 7 ∧ 15 ≤ 15 ∧ (0x71 : Byte) = digitByte ready.dots 7 (glyph ready.cfg 15)) ∧
      (7 ≤ 7 ∧ 3 ≤ 3 ∧ 0x0F = 1 + 2 * 7 ∧ (0x03 : Byte) = ledByte ready.cfg (colourGreen 3) (colourRed 3)) := by decide

theorem witness_DctlSendsDisplayControl :
    ready.seq = .idle ∧ 7 ≤ 7 ∧ ready.ready := by decide

theorem witness_GetbuttonsReadsMask :
    State.reset.seq = .idle ∧ ready.ready := by decide

theorem witness_ButtonMaskIndependentOfWrites :
    ∃ s s' t t' : State, s.env = s'.env ∧ s.draws = s'.draws ∧ s.dots ≠ s'.dots ∧ exec .getbuttons s = .next t ∧
      exec .getbuttons s' = .next t' := ⟨ready, dotted 0xFF, _, _, rfl, rfl, by decide, rfl, rfl⟩

theorem witness_InitConfiguresBlock :
    State.reset.seq = .idle ∧ ready.seq = .idle := ⟨rfl, rfl⟩

theorem witness_InitClearsFarEnd :
    (State.reset.seq = .idle ∧ State.reset.cfg.legal ∧ State.reset.far.status = .unspecified) ∧
      (ready.seq = .idle ∧ ready.cfg.legal ∧ ready.far.status = .following ∧ ready.far.frame = none) := by decide

theorem witness_FarEndUnspecifiedBeforeInit :
    State.reset.far.status = .unspecified ∧ Instr.fopen ≠ .init ∧ ∃ t, exec .fopen State.reset = .next t := ⟨rfl, by decide, ⟨_, rfl⟩⟩

theorem witness_RegisterMapReturnsAddress :
    ready.seq = .idle ∧ 7 ≤ 7 ∧ 7 < 8 := by decide

theorem witness_RegisterMapCoversAddresses :
    0 < 7 ∧ 0x0F ≤ 0x0F ∧ ∃ p, p ≤ 7 ∧ (0x0F = digitRegister p ∨ 0x0F = ledRegister p) := ⟨by decide, by decide, 7, by decide⟩

theorem witness_SetdotsReplacesMask :
    State.reset.seq = .idle ∧ 7 ≤ 7 ∧ (∀ n, Instr.fopen ≠ .setdots n) ∧
      ∃ t u v, exec (.setdots 0x80) State.reset = .next t ∧ exec (.setbyte 7 0x3F) t = .next u ∧ exec .fopen t = .next v :=
  ⟨rfl, by decide, fun _ h => (nomatch h), _, _, _, rfl, rfl, rfl⟩

theorem witness_SetbyteAddsPoint :
    (dotted 0x80).seq = .idle ∧ 7 ≤ 7 ∧ 7 < 8 ∧ (dotted 0x80).dots.getLsbD 7 = true ∧ (dotted 0x80).dots.getLsbD 6 = false := by decide

theorem witness_SetdigitWritesGlyph :
    ready.seq = .idle ∧ 7 ≤ 7 ∧ 7 < 8 ∧ 15 < 16 := by decide

theorem witness_SetdotsThenSetdigit :
    ready.ready ∧ 7 ≤ 7 ∧ (0x80 : Byte).getLsbD 7 = true ∧ (after (.setdots 0x80) ready).isSome = true := by decide

theorem witness_ClearsSendZeroWrites :
    State.reset.seq = .idle := rfl

theorem witness_ClearsStoreZeroInTheirHalf :
    (dotted 0xFF).ready ∧ 7 ≤ 7 := by decide

theorem witness_SetledsWritesAllLeds :
    ready.seq = .idle ∧ ready.ready := by decide

theorem witness_SetledWritesColour :
    ready.seq = .idle ∧ 7 ≤ 7 ∧ 3 ≤ 3 := by decide

theorem witness_FormatterRunsItsRequests :
    ready.seq = .idle ∧ isPseudo (.setnumber 42 6 .left) = true ∧
      (expansionOf ready.cfg (.setnumber 42 6 .left)).all (·.inRange) = true ∧ isPseudo (.setchars [] 8) = true ∧
      (expansionOf ready.cfg (.setchars [] 8)).all (·.inRange) = true ∧ expansionOf ready.cfg (.setchars [] 8) = [] ∧
      (expansionOf ready.cfg (.setnumber 42 6 .left)).getLast? = some (.digit 6 4) := by decide

theorem witness_FormatterStoresItsDigits :
    ready.ready ∧ isPseudo (.setnumberhex 0x10 7 3 0) = true ∧ (after (.setnumberhex 0x10 7 3 0) ready).isSome = true := by decide +kernel

theorem witness_DigitCountIsLeast :
    1 ≤ 3 ∧ 999 < 10 ^ 3 := by decide

theorem witness_SetnumberPlacesDigits :
    (42 : Nat) ≠ 0 ∧ 7 = 6 + ndigits10 42 - 1 ∧ (0 : Nat) = 0 := by decide

theorem witness_PaddedFieldIsDigitsThenPads :
    (10 : Nat) = 10 ∧ ((16 : Nat) = 10 ∨ (16 : Nat) = 16) := by decide

theorem witness_SetcharOrderedMatch :
    (∃ c : Params, charLookupOf c 0x2D ≠ 0) ∧ charLookupOf defaultParams 0x5A = 0 ∧ (0x5A : Byte) = BitVec.ofNat 8 (0x41 + 25) ∧
      (0x39 : Byte) = BitVec.ofNat 8 (0x30 + 9) ∧ charLookupOf defaultParams 0x3A = 0 ∧
      (∀ n, n < 26 → (0x3A : Byte) ≠ BitVec.ofNat 8 (0x61 + n) ∧ (0x3A : Byte) ≠ BitVec.ofNat 8 (0x41 + n)) ∧
      ∀ n, n < 10 → (0x3A : Byte) ≠ BitVec.ofNat 8 (0x30 + n) := ⟨⟨{ defaultParams with charLookup := [(0x2D, 0x40)] }, by decide⟩, by decide⟩

theorem witness_SetcharsIsSetcharInTurn :
    State.reset.seq = .idle ∧
      ∃ t u : State, exec (.setchar 6 0x41) ready = .next t ∧ exec (.setchars [0x42] 7) t = .next u := ⟨rfl, _, _, rfl, rfl⟩

theorem witness_WritesBeforeRefusalAreMade :
    ready.seq = .idle ∧ expansionOf ready.cfg (.setchars [0x61, 0x64] 7) = [.digit 7 10] ++ .digit 8 13 :: [] ∧
      [DigitRequest.digit 7 10] ≠ [] ∧ [DigitRequest.digit 7 10].all (·.inRange) = true ∧
      (DigitRequest.digit 8 13).inRange = false := by decide

theorem witness_WireCommandsSendTheirFrames :
    State.reset.seq = .idle := rfl

theorem witness_WireCommandsActOnFarEnd :
    (ready.ready ∧ ready.far.mode = none ∧ (after (.cmdAddr 15 0xFF) ready).isSome = true) ∧
      ∃ s : State, s.ready ∧ s.far.mode = some .fixed ∧ (after (.cmdAddr 15 0xFF) s).isSome = true := ⟨by decide +kernel, ⟨{ ready with far := { ready.far with announced := true } }, by decide +kernel⟩⟩

theorem witness_OtherFramesAreRefused :
    ∃ (c : Params) (f : FarEnd) (fr : Frame), c.legal ∧ f.status = .following ∧
      fr.items ≠ [.tx c.cmdDataAuto] ∧ fr.items ≠ [.tx c.cmdDataFixed] ∧
      (∀ l : BitVec 3, fr.items ≠ [.tx (c.cmdDisplayOn ||| l.setWidth 8)]) ∧
      (∀ (a : BitVec 4) (d : Byte), fr.items = [.tx (c.cmdAddr ||| a.setWidth 8), .tx d] → f.announced = false) ∧
      (∀ k0 k1 k2 k3 : Byte, fr.items ≠ [.tx c.cmdDataReadKeys, .rx k0, .rx k1, .rx k2, .rx k3]) :=
  ⟨defaultParams, ready.far, ⟨[.tx 0xCF, .tx 0], []⟩, by decide, rfl, by decide, by decide, fun _ => by simp,
    fun _ _ _ => rfl, fun _ _ _ _ => by simp⟩

theorem witness_OtherFramesAreRefused_part : (⟨[], [.tx true]⟩ : Frame).part ≠ [] := by decide

theorem witness_EmptyFrameIsRefused :
    ready.ready := by decide

theorem witness_CompositesKeepIdleConfiguration :
    isComposite .getbuttons = true ∧ ready.idleConfig ∧ ∃ t, exec .getbuttons ready = .next t := ⟨rfl, by decide, ⟨_, rfl⟩⟩

theorem witness_OnlySetdotsWritesDots :
    (∃ t, exec .clear (dotted 0xFF) = .next t) ∧ (∀ m, Instr.clear ≠ .setdots m) ∧
      ∃ (s t : State) (k : Nat), s.seq = .busy .fopen k ∧ step s = .next t := ⟨⟨_, rfl⟩, fun _ h => (nomatch h), ⟨busyAt .fopen 0, _, 0, rfl, rfl⟩⟩

theorem witness_ParametersNeverChange :
    ∃ t, step (busyAt .fopen 0) = .next t := ⟨_, rfl⟩

theorem witness_FrameOfEveryOperation :
    ∃ t, exec .fopen ready = .next t := ⟨_, rfl⟩

theorem witness_OneDelayAndSamplePerReceivedBit :
    ∃ (t : State) (es : List Event), exec .recv (driven [1, 0, 0, 0, 1, 0, 0, 0]) = .next t ∧
      t.trace = (driven [1, 0, 0, 0, 1, 0, 0, 0]).trace ++ es := ⟨_, _, rfl, rfl⟩

theorem witness_ResetMeetsInvariant :
    defaultParams.legal ∧ { defaultParams with cmdDataAuto := 0x4F }.legal := by decide

theorem witness_ResetState :
    0x0F < 16 ∧ 16 ≤ 0x10 := by decide

theorem witness_StepKeepsInvariant :
    (busyAt (.send 0x80) 23).inv ∧ ready.inv ∧ ∃ t, step (busyAt (.send 0x80) 23) = .next t := ⟨⟨by decide, .inl (by decide), by decide, by decide⟩, ⟨by decide, rfl, by decide, by decide⟩, ⟨_, rfl⟩⟩

end Sys2Proof.Tests
end

/-! Register Map and Display State (42_display_state.md): DIGREG, LEDREG, SETDOTS and SETBYTE. -/

namespace Sys2Proof.Machine

/-! Operations that a position above 7 refuses (42_display_state.md R153). -/

theorem perform_positionStop_next {p : Nat} {s : State} (ms : List Micro) (f : Finish) (hs : s.seq = .idle) (hp : p ≤ 7) :
    perform (Plan.guarded (positionStop p) ms f) s = .next ((s.runMicros ms).complete f) := by
  rw [positionStop_ok hp, plan_guarded_none, perform_next _ _ hs rfl]

theorem perform_positionStop_refused {p : Nat} {s : State} (ms : List Micro) (f : Finish) (hs : s.seq = .idle)
    (hp : 7 < p) : perform (Plan.guarded (positionStop p) ms f) s = .refused (.positionOutOfRange p) := by
  rw [positionStop_out hp, plan_guarded_some]
  exact (perform_refused_iff _ _ _).2 (.inl ⟨hs, rfl⟩)

/-- An operation without an event that returns an address changes nothing else (42_display_state.md R151, R152). -/
theorem perform_returnAddress {p : Nat} (a : Nat) {s : State} (hs : s.seq = .idle) (hp : p ≤ 7) :
    ∃ t, perform (Plan.guarded (positionStop p) [] (.returnAddress a)) s = .next t ∧ t.result = some (.address a) ∧
      t.trace = s.trace ∧ t.gpio = s.gpio ∧ s.onlyBus t ∧ s.noSample t ∧ t.far = s.far :=
  ⟨_, perform_positionStop_next _ _ hs hp, rfl, rfl, rfl, ⟨rfl, rfl, rfl, rfl, rfl, rfl⟩, ⟨rfl, rfl⟩, rfl⟩

/-! Which operations end with a write of `DOTS` (10_state.md R25). -/

theorem guarded_keeps_dots (stop : Option Refusal) (ms : List Micro) {f : Finish} {d : Byte} (hf : f.dots d = d) :
    (Plan.guarded stop ms f).finish.dots d = d := by
  cases stop with
  | none => exact hf
  | some r => rfl

/-- A sequence of requests ends without a result, refused or not (43_formatter.md R176). -/
theorem sequence_finish (ps : List Plan) : (Plan.sequence ps).finish = .nothing := by
  induction ps with
  | nil => rfl
  | cons p ps ih =>
    rw [Plan.sequence]
    split
    · rfl
    · exact ih

theorem planRequests_keeps_dots (c : Params) (dots : Byte) (rs : List DigitRequest) (d : Byte) :
    (planRequests c dots rs).finish.dots d = d := by
  rw [planRequests, sequence_finish, Finish.dots]

theorem planSetdigit_keeps_dots (c : Params) (dots : Byte) (p g : Nat) (d : Byte) :
    (planSetdigit c dots p g).finish.dots d = d := by
  rw [planSetdigit]
  split
  · rfl
  · exact guarded_keeps_dots _ _ rfl

/-- Of all plans only that of SETDOTS ends with a write of `DOTS`. -/
theorem plan_keeps_dots {i : Instr} (hi : ∀ m, i ≠ .setdots m) (s : State) (d : Byte) :
    (plan i s).finish.dots d = d := by
  cases i with
  | setdots m => exact absurd rfl (hi m)
  | wrreg | dctl | digreg | ledreg | setbyte => exact guarded_keeps_dots _ _ rfl
  | setdigit p g => exact planSetdigit_keeps_dots ..
  | setled p col =>
    rw [plan, planSetled]
    split
    · rfl
    · exact guarded_keeps_dots _ _ rfl
  | setnumber | setnumberpad | setnumberhex | setchar | setchars => exact planRequests_keeps_dots ..
  | _ => rfl

theorem exec_keeps_dots {i : Instr} {s t : State} (hi : ∀ m, i ≠ .setdots m) (h : exec i s = .next t) :
    t.dots = s.dots := by
  rw [exec_eq_perform, perform_next_iff] at h
  obtain ⟨-, -, rfl⟩ := h
  obtain ⟨-, hd, -⟩ := runMicros_frame (plan i s).micros s
  rw [State_complete_dots, plan_keeps_dots hi]
  exact hd

/-! One WRREG, and SETBYTE, which is one (41_command_protocol.md R133, 42_display_state.md R155). -/

theorem wrregEvents_length (c : Params) (a : Nat) (d : Byte) : (wrregEvents c a d).length = 76 := rfl

/-- What an operation that is one WRREG leaves behind in the block. -/
theorem wrregMicros_complete {a : Nat} (d : Byte) {s t : State} (ha : a ≤ 15)
    (ht : t = (s.runMicros (wrregMicros s.cfg a d)).complete .nothing) :
    t.trace = s.trace ++ wrregEvents s.cfg a d ∧ t.gpio = { s.gpio with out := ⟨true, true, d.getLsbD 7⟩ } ∧
      t.result = none ∧ s.onlyBus t ∧ s.noSample t := by
  rw [wrregMicros_run a d s ha] at ht
  subst ht
  exact ⟨by simp [State.trace], rfl, rfl, ⟨rfl, rfl, rfl, rfl, rfl, rfl⟩, rfl, rfl⟩

theorem exec_setbyte_next {p : Nat} {s : State} (v : Byte) (hs : s.seq = .idle) (hp : p ≤ 7) :
    exec (.setbyte p v) s =
      .next ((s.runMicros (wrregMicros s.cfg (2 * p) (digitByte s.dots p v))).complete .nothing) :=
  perform_positionStop_next _ _ hs hp

/-! The byte of a digit register (42_display_state.md R155). -/

theorem digitByte_eq_ite (dots : Byte) (p : Nat) (v : Byte) :
    digitByte dots p v = if dots.getLsbD p then v ||| 0x80 else v := by
  unfold digitByte
  split <;> simp

/-- The decimal point is in no bit below bit 7. -/
theorem digitByte_getLsbD_of_lt (dots : Byte) (p : Nat) (v : Byte) {i : Nat} (hi : i < 7) :
    (digitByte dots p v).getLsbD i = v.getLsbD i := by
  have hpoint : (0x80 : Byte).getLsbD i = false := by interval_cases i <;> rfl
  rw [digitByte_eq_ite]
  split
  · rw [BitVec.getLsbD_or, hpoint, Bool.or_false]
  · rfl

/-- The mask can add the point and never remove it (42_display_state.md R155 corner case (a)). -/
theorem digitByte_getLsbD_seven (dots : Byte) (p : Nat) (v : Byte) :
    (digitByte dots p v).getLsbD 7 = (v.getLsbD 7 || dots.getLsbD p) := by
  rw [digitByte_eq_ite]
  split
  · next h => rw [BitVec.getLsbD_or, h]; rfl
  · next h => rw [Bool.eq_false_iff.2 h, Bool.or_false]

/-! The statements. -/

/-- Settles O32: SETDOTS has no event and ends with the write of `DOTS`, which no other plan ends with; a SETBYTE after it
writes the byte that the new mask gives. -/
theorem setdotsReplacesMask : Obligations.SetdotsReplacesMask := by
  unfold Obligations.SetdotsReplacesMask
  intro m s hs
  have hrun : exec (.setdots m) s = .next (s.complete (.writeDots m)) := perform_next (planSetdots m) s hs rfl
  refine ⟨_, hrun, rfl, rfl, rfl, rfl, rfl, rfl, rfl, ⟨rfl, rfl⟩, rfl, rfl, ?later, ?others⟩
  case later =>
    intro p v u hp hu
    rw [exec_setbyte_next v rfl hp, Host.Outcome.next.injEq] at hu
    obtain ⟨htrace, -⟩ := wrregMicros_complete _ (by omega) hu.symm
    rw [htrace, digitByte_eq_ite]
    rfl
  case others => exact fun i u hi hu => exec_keeps_dots hi hu

/-- Settles O33: SETBYTE in range is one WRREG of `digitByte`, whose bits are known one by one. -/
theorem setbyteAddsPoint : Obligations.SetbyteAddsPoint := by
  unfold Obligations.SetbyteAddsPoint
  intro p v s hs
  refine ⟨fun hp => ?_, fun hp => perform_positionStop_refused _ _ hs hp, rfl⟩
  obtain ⟨htrace, hgpio, hresult, hframe⟩ := wrregMicros_complete (a := 2 * p) (digitByte s.dots p v) (by omega) rfl
  exact ⟨_, digitByte s.dots p v, exec_setbyte_next v hs hp, htrace, wrregEvents_length ..,
    fun i hi => digitByte_getLsbD_of_lt _ _ _ hi, digitByte_getLsbD_seven .., hgpio, hresult, hframe⟩

/-- Settles O30: DIGREG and LEDREG have no event and end with the address as their result. -/
theorem registerMapReturnsAddress : Obligations.RegisterMapReturnsAddress := by
  unfold Obligations.RegisterMapReturnsAddress
  intro p s hs
  refine ⟨fun hp => ⟨perform_returnAddress _ hs hp, perform_returnAddress _ hs hp⟩, fun hp => ?_, by omega, by omega,
    rfl, rfl⟩
  exact ⟨perform_positionStop_refused _ _ hs hp, perform_positionStop_refused _ _ hs hp⟩

end Sys2Proof.Machine

/-! Decoding and encoding (30_encoding.md). -/

namespace Sys2Proof

open Sys2Proof.Machine

/-! What the wire decoder reads from each command byte (30_encoding.md R86, R89, R90). -/

theorem decodeWire_auto (c : Params) : decodeWire c [c.cmdDataAuto] = some .cmdDataAuto := by
  simp [decodeWire, wireOpOf_auto]

theorem decodeWire_readKeys {c : Params} (h : c.legal) : decodeWire c [c.cmdDataReadKeys] = some .cmdDataReadKeys := by
  simp [decodeWire, wireOpOf_readKeys c h]

theorem decodeWire_fixed {c : Params} (h : c.legal) : decodeWire c [c.cmdDataFixed] = some .cmdDataFixed := by
  simp [decodeWire, wireOpOf_fixed c h]

theorem decodeWire_addr {c : Params} (h : c.legal) (a : BitVec 4) (d : Byte) :
    decodeWire c [setAddressByte c a, d] = some (.cmdAddr a d) := by
  have hop := wireOpOf_addr c h a
  obtain ⟨-, ⟨hlow, -⟩, -⟩ := h
  have hcursor : (setAddressByte c a).setWidth 4 = a := (or_low4 c.cmdAddr a hlow).2
  simp [decodeWire, hop, hcursor]

theorem decodeWire_display {c : Params} (h : c.legal) (l : BitVec 3) :
    decodeWire c [displayControlByte c l] = some (.cmdDisplayOn l) := by
  have hop := wireOpOf_display c h l
  obtain ⟨-, ⟨-, hlow⟩, -⟩ := h
  have hlevel : (displayControlByte c l).setWidth 3 = l := (or_low3 c.cmdDisplayOn l hlow).2.1
  simp [decodeWire, hop, hlevel]

theorem decodeRequest_wire {c : Params} {bytes : List Byte} {i : Instr} (h : decodeWire c bytes = some i) :
    decodeRequest c (.wire bytes) = .ok i := by
  simp [decodeRequest, h]

/-- Settles O1: a host request computes back to its instruction; a frame of the wire does by the command classes that legal
parameters keep apart. -/
theorem decodeEncodeAgree : Obligations.DecodeEncodeAgree := by
  unfold Obligations.DecodeEncodeAgree
  intro c i h
  cases i with
  | cmdDataAuto => exact decodeRequest_wire (decodeWire_auto c)
  | cmdDataReadKeys => exact decodeRequest_wire (decodeWire_readKeys h)
  | cmdDataFixed => exact decodeRequest_wire (decodeWire_fixed h)
  | cmdAddr a d => exact decodeRequest_wire (decodeWire_addr h a d)
  | cmdDisplayOn l => exact decodeRequest_wire (decodeWire_display h l)
  | _ => rfl

/-- Settles O2: the decoder computes each of the ten words. -/
theorem tableWordsDecode : Obligations.TableWordsDecode := by
  unfold Obligations.TableWordsDecode
  decide

end Sys2Proof

/-! The step of the machine, whole and in single events (10_state.md R31, R32), and the invariant. -/

namespace Sys2Proof.Machine

/-! What an operation and a step can answer with. -/

/-- An operation ends in the state that its plan's micro-operations reach, completed (10_state.md R32). -/
theorem exec_next_iff {i : Instr} {s t : State} :
    exec i s = .next t ↔ s.seq = .idle ∧ (plan i s).stop = none ∧
      t = (s.runMicros (plan i s).micros).complete (plan i s).finish := by
  rw [exec_eq_perform, perform_next_iff]
  rfl

/-- A step waits, or runs the next request whole, or performs one event of the operation in progress. -/
theorem step_next {s t : State} (h : step s = .next t) :
    t = s ∨ (∃ i rs, exec i { s with requests := rs } = .next t) ∨
      ∃ i k, s.seq = .busy i k ∧ advance (plan i s) i k s = .next t := by
  unfold step at h
  split at h
  · next i k hq => exact .inr (.inr ⟨i, k, hq, h⟩)
  · split at h
    · cases h; exact .inl rfl
    · next r rs _ =>
      split at h
      · next i _ => exact .inr (.inl ⟨i, rs, h⟩)
      · cases h

/-- What every micro-operation of a list keeps, their run keeps. -/
theorem runMicros_preserves {P : State → Prop} {ms : List Micro} (hm : ∀ m ∈ ms, ∀ u, P u → P (m.run u)) {s : State}
    (hs : P s) : P (s.runMicros ms) := by
  induction ms generalizing s with
  | nil => exact hs
  | cons m ms ih => exact ih (fun n hn => hm n (List.mem_cons_of_mem _ hn)) (hm m List.mem_cons_self s hs)

/-- A property that every micro-operation of every plan keeps, and that depends neither on the sequencer position and the
queue of requests nor on what the end of an operation writes, is kept by every step. -/
theorem step_preserves {P : State → Prop}
    (micro : ∀ (i : Instr) (v : State), ∀ m ∈ (plan i v).micros, ∀ u, P u → P (m.run u))
    (complete : ∀ f u, P u → P (u.complete f)) (seq : ∀ q u, P u → P { u with seq := q })
    (requests : ∀ rs u, P u → P { u with requests := rs }) {s t : State} (h : step s = .next t) (hs : P s) : P t := by
  rcases step_next h with rfl | ⟨i, rs, h⟩ | ⟨i, k, -, h⟩
  · exact hs
  · obtain ⟨-, -, rfl⟩ := exec_next_iff.1 h
    exact complete _ _ (runMicros_preserves (micro i _) (requests rs s hs))
  · rcases advance_next h with ⟨m, hm, -, rfl⟩ | ⟨m, hm, -, -, rfl⟩ | ⟨-, -, rfl⟩
    · exact seq _ _ (micro i s m (List.mem_of_getElem? hm) s hs)
    · exact complete _ _ (micro i s m (List.mem_of_getElem? hm) s hs)
    · exact complete _ _ hs

/-! The micro-operations of every plan, from the transport operations up (41_command_protocol.md R130). -/

theorem flatMap_induction {α : Type} {Q : List Micro → Prop} (nil : Q []) (append : ∀ ms ns, Q ms → Q ns → Q (ms ++ ns))
    (f : α → List Micro) (as : List α) (h : ∀ a ∈ as, Q (f a)) : Q (as.flatMap f) := by
  induction as with
  | nil => exact nil
  | cons a as ih => exact append _ _ (h a (by simp)) (ih fun b hb => h b (by simp [hb]))

theorem guarded_induction {Q : List Micro → Prop} (nil : Q []) (stop : Option Refusal) {ms : List Micro} (f : Finish)
    (h : Q ms) : Q (Plan.guarded stop ms f).micros := by
  cases stop with
  | none => exact h
  | some r => exact nil

theorem sequence_induction {Q : List Micro → Prop} (nil : Q []) (append : ∀ ms ns, Q ms → Q ns → Q (ms ++ ns))
    (ps : List Plan) (h : ∀ p ∈ ps, Q p.micros) : Q (Plan.sequence ps).micros := by
  induction ps with
  | nil => exact nil
  | cons p ps ih =>
    rw [Plan.sequence]
    split
    · exact h p (by simp)
    · exact append _ _ (h p (by simp)) (ih fun q hq => h q (by simp [hq]))

section Frames

variable {Q : List Micro → Prop} (nil : Q []) (append : ∀ ms ns, Q ms → Q ns → Q (ms ++ ns))
  (command : ∀ b, Q (commandMicros b)) (writeFrame : ∀ b d, Q (writeFrameMicros b d))
include append command writeFrame

theorem wrregMicros_induction (c : Params) (a : Nat) (d : Byte) : Q (wrregMicros c a d) :=
  append _ _ (command _) (writeFrame _ _)

include nil

theorem planSetdigit_induction (c : Params) (dots : Byte) (p g : Nat) : Q (planSetdigit c dots p g).micros := by
  rw [planSetdigit]
  split
  · exact nil
  · exact guarded_induction nil _ _ (wrregMicros_induction append command writeFrame ..)

theorem planRequests_induction (c : Params) (dots : Byte) (rs : List DigitRequest) :
    Q (planRequests c dots rs).micros := by
  refine sequence_induction nil append _ fun p hp => ?_
  obtain ⟨r, -, rfl⟩ := List.mem_map.1 hp
  cases r with
  | digit p g => exact planSetdigit_induction nil append command writeFrame ..
  | byte p v => exact guarded_induction nil _ _ (wrregMicros_induction append command writeFrame ..)

/-- A composite operation is frames one after another, INIT's after the pin configuration; only the operations that receive
send a read frame. -/
theorem composite_induction {i : Instr} {s : State} (hi : isComposite i = true) (pin : i = .init → Q pinMicros)
    (readKeys : bytesReceived i = 4 → Q (readKeysMicros s.cfg)) : Q (plan i s).micros := by
  have writes : ∀ (f : Nat → Nat) (g : Nat → Byte), Q (positions.flatMap fun p => wrregMicros s.cfg (f p) (g p)) :=
    fun f g => flatMap_induction nil append _ _ fun p _ => wrregMicros_induction append command writeFrame ..
  cases i with
  | fopen | fclose | send | recv => cases hi
  | init =>
    exact append _ _ (append _ _ (append _ _ (append _ _ (pin rfl) (command _)) (command _))
      (writes digitRegister fun _ => 0)) (writes ledRegister fun _ => 0)
  | command | cmdDataAuto | cmdDataFixed | cmdDisplayOn => exact command _
  | getbuttons | cmdDataReadKeys => exact readKeys rfl
  | cmdAddr => exact writeFrame _ _
  | dctl => exact guarded_induction nil _ _ (command _)
  | wrreg | setbyte => exact guarded_induction nil _ _ (wrregMicros_induction append command writeFrame ..)
  | digreg | ledreg => exact guarded_induction nil _ _ nil
  | setdots => exact nil
  | setdigit => exact planSetdigit_induction nil append command writeFrame ..
  | clear => exact writes digitRegister fun _ => 0
  | clearleds => exact writes ledRegister fun _ => 0
  | setleds g r => exact writes ledRegister fun p => ledByte s.cfg (g.getLsbD p) (r.getLsbD p)
  | setled p col =>
    rw [plan, planSetled]
    split
    · exact nil
    · exact guarded_induction nil _ _ (wrregMicros_induction append command writeFrame ..)
  | setnumber | setnumberpad | setnumberhex | setchar | setchars =>
    exact planRequests_induction nil append command writeFrame ..

end Frames

/-- Every operation is transport operations one after another, a read frame standing for itself. -/
theorem plan_induction {Q : List Micro → Prop} (nil : Q []) (append : ∀ ms ns, Q ms → Q ns → Q (ms ++ ns))
    (fopen : Q fopenMicros) (fclose : Q fcloseMicros) (send : ∀ b, Q (sendMicros b)) {i : Instr} {s : State}
    (recv : i = .recv → Q recvMicros) (pin : i = .init → Q pinMicros)
    (readKeys : bytesReceived i = 4 → Q (readKeysMicros s.cfg)) : Q (plan i s).micros := by
  by_cases hi : isComposite i = true
  · exact composite_induction nil append (fun b => append _ _ (append _ _ fopen (send b)) fclose)
      (fun b d => append _ _ (append _ _ (append _ _ fopen (send b)) (send d)) fclose) hi pin readKeys
  · cases i with
    | fopen => exact fopen
    | fclose => exact fclose
    | send b => exact send b
    | recv => exact recv rfl
    | _ => exact absurd rfl hi

/-! The idle configuration (10_state.md R37). -/

theorem commandMicros_idle (b : Byte) {s : State} (h : s.gpio.idle) : (s.runMicros (commandMicros b)).gpio.idle := by
  rw [commandMicros_run]
  exact ⟨h.1, rfl, rfl⟩

theorem writeFrameMicros_idle (b d : Byte) {s : State} (h : s.gpio.idle) :
    (s.runMicros (writeFrameMicros b d)).gpio.idle := by
  rw [writeFrameMicros_run]
  exact ⟨h.1, rfl, rfl⟩

theorem pinMicros_idle (s : State) : (s.runMicros pinMicros).gpio.idle := by
  rw [pinMicros_run]
  exact ⟨rfl, rfl, rfl⟩

theorem readKeysMicros_idle {s : State} (h : s.gpio.idle) : (s.runMicros (readKeysMicros s.cfg)).gpio.idle := by
  rw [(readKeysMicros_run s).1]
  exact ⟨by simp [h.1], rfl, rfl⟩

/-- Settles O52: the pin configuration and every frame end with strobe and clock high and leave the directions as they are. -/
theorem compositesKeepIdleConfiguration : Obligations.CompositesKeepIdleConfiguration := by
  unfold Obligations.CompositesKeepIdleConfiguration
  rintro i s t hi ⟨-, hidle⟩ h
  obtain ⟨-, -, rfl⟩ := exec_next_iff.1 h
  refine ⟨rfl, ?_⟩
  refine composite_induction (Q := fun ms => ∀ u : State, u.cfg = s.cfg → u.gpio.idle → (u.runMicros ms).gpio.idle)
    (fun u _ hu => hu) (fun ms ns hms hns u hc hu => ?_) (fun b u _ hu => commandMicros_idle b hu)
    (fun b d u _ hu => writeFrameMicros_idle b d hu) hi (fun _ u _ _ => pinMicros_idle u)
    (fun _ u hc hu => ?_) s rfl hidle
  · rw [runMicros_append]
    exact hns _ ((runMicros_frame ms u).1.trans hc) (hms u hc hu)
  · rw [← hc]
    exact readKeysMicros_idle hu

/-! The invariant of the machine. -/

/-- An event moves the operation in progress to a position that it has (10_state.md R31). -/
theorem advance_seqInv {i : Instr} {k : Nat} {s t : State} (h : advance (plan i s) i k s = .next t) : t.seqInv := by
  rcases advance_next h with ⟨m, hm, hnext, rfl⟩ | ⟨m, -, -, -, rfl⟩ | ⟨-, -, rfl⟩
  · obtain ⟨hcfg, hdots, -⟩ := micro_run_frame m s
    have hplan : plan i { m.run s with seq := .busy i (k + 1) } = plan i s := plan_congr i hcfg hdots
    have hk : k < (plan i s).micros.length := (List.getElem?_eq_some_iff.1 hm).1
    simp only [State.seqInv, hplan]
    rcases hnext with hstop | hlt
    · by_cases hlt : k + 1 < (plan i s).micros.length
      · exact .inl hlt
      · exact .inr ⟨by omega, hstop⟩
    · exact .inl hlt
  · rfl
  · rfl

theorem step_seqInv {s t : State} (h : step s = .next t) (hs : s.seqInv) : t.seqInv := by
  rcases step_next h with rfl | ⟨i, rs, h⟩ | ⟨i, k, -, h⟩
  · exact hs
  · obtain ⟨-, -, rfl⟩ := exec_next_iff.1 h
    rfl
  · exact advance_seqInv h

/-- Settles O57: the sequencer position by what a step can answer with; parameters and far end are kept by every
micro-operation. -/
theorem stepKeepsInvariant : Obligations.StepKeepsInvariant := by
  unfold Obligations.StepKeepsInvariant
  rintro s t ⟨hlegal, hseq, hfar⟩ h
  obtain ⟨hlegal', hfar'⟩ := step_preserves
    (P := fun u => u.cfg.legal ∧ u.far.inv ∧ (u.far.frame ≠ none → u.gpio.out.stb = false))
    (fun _ _ m _ u hu => ⟨by rw [(micro_run_frame m u).1]; exact hu.1, micro_run_far m u hu.2⟩)
    (fun _ _ hu => hu) (fun _ _ hu => hu) (fun _ _ hu => hu) h ⟨hlegal, hfar⟩
  exact ⟨hlegal', step_seqInv h hseq, hfar'⟩

end Sys2Proof.Machine

/-! Requests, small steps, refusals (10_state.md R31, R32, 60_exceptions.md R192). -/

namespace Sys2Proof.Machine

/-! Steps. -/

theorem exec_next {i : Instr} {s : State} (hs : s.seq = .idle) (hstop : (plan i s).stop = none) :
    exec i s = .next ((s.runMicros (plan i s).micros).complete (plan i s).finish) :=
  exec_next_iff.2 ⟨hs, hstop, rfl⟩

theorem exec_refused {i : Instr} {s : State} {r : Refusal} (hs : s.seq = .idle) (hstop : (plan i s).stop = some r) :
    exec i s = .refused r := by
  rw [exec_eq_perform]
  exact (perform_refused_iff _ _ _).2 (.inl ⟨hs, hstop⟩)

theorem exec_busy {s : State} (hs : s.seq ≠ .idle) (i : Instr) : exec i s = .refused .requestWhileBusy := by
  rw [exec_eq_perform]
  exact (perform_refused_iff _ _ _).2 (.inr ⟨hs, rfl⟩)

theorem step_waits {s : State} (hs : s.seq = .idle) (hr : s.requests = []) : step s = .next s := by
  simp [step, hs, hr]

theorem step_request {s : State} {r : Request} {rs : List Request} {i : Instr} (hs : s.seq = .idle)
    (hr : s.requests = r :: rs) (hd : decodeRequest s.cfg r = .ok i) : step s = exec i { s with requests := rs } := by
  simp [step, hs, hr, hd]

theorem step_undecoded {s : State} {r : Request} {rs : List Request} {e : DecodeError} (hs : s.seq = .idle)
    (hr : s.requests = r :: rs) (hd : decodeRequest s.cfg r = .error e) : step s = .refused (refusalOf e) := by
  simp [step, hs, hr, hd]

theorem step_busy {s : State} {i : Instr} {k : Nat} (hs : s.seq = .busy i k) :
    step s = advance (plan i s) i k s := by
  simp [step, hs, resume]

theorem stepEvent_busy {s : State} {i : Instr} {k : Nat} (hs : s.seq = .busy i k) :
    stepEvent s = advance (plan i s) i k s := by
  simp [stepEvent, hs, resume]

/-- Settles O3, by the step's own definition. -/
theorem stepRunsTheRequest : Obligations.StepRunsTheRequest := by
  unfold Obligations.StepRunsTheRequest
  exact fun s r rs i hs hr hd => step_request hs hr hd

/-- Settles O4, by the step's own definition. -/
theorem idleMachineWaits : Obligations.IdleMachineWaits := by
  unfold Obligations.IdleMachineWaits
  exact fun s hs hr => step_waits hs hr

/-- Settles O5: the one event is that of the micro-operation, and whether it is the last decides where the sequencer goes. -/
theorem busyStepPerformsOneEvent : Obligations.BusyStepPerformsOneEvent := by
  unfold Obligations.BusyStepPerformsOneEvent
  intro s i k m hs hstop hm
  obtain ⟨e, htrace, hgpio⟩ := micro_run_event m s
  obtain ⟨-, hdots, -, hresult, -⟩ := micro_run_frame m s
  have hk : k < (plan i s).micros.length := (List.getElem?_eq_some_iff.1 hm).1
  by_cases hlast : k + 1 < (plan i s).micros.length
  · refine ⟨e, { m.run s with seq := .busy i (k + 1) }, ?_, htrace, hgpio, fun _ => ⟨rfl, hdots, hresult⟩, ?_⟩
    · simp [step_busy hs, advance, hm, hstop, hlast]
    · intro h; omega
  · refine ⟨e, (m.run s).complete (plan i s).finish, ?_, htrace, hgpio, fun h => absurd h hlast, fun _ => ⟨rfl, rfl⟩⟩
    simp [step_busy hs, advance, hm, hstop, hlast]

/-! An operation event by event. -/

theorem begin_busy {i : Instr} {s : State} (hs : s.seq = .idle) (hm : (plan i s).micros ≠ []) :
    begin i s = .next { s with seq := .busy i 0 } := by
  obtain ⟨m, ms, hms⟩ := List.exists_cons_of_ne_nil hm
  simp [begin, start, hs, hms]

theorem begin_without_event {i : Instr} {s : State} (hs : s.seq = .idle) (hm : (plan i s).micros = [])
    (hstop : (plan i s).stop = none) : begin i s = .next (s.complete (plan i s).finish) := by
  simp [begin, start, hs, hm, hstop]

/-- The state of an operation that has begun and made its first `n` events, the last of a plan that is not refused excepted. -/
theorem runEvents_begin {i : Instr} {s : State} (hs : s.seq = .idle) (hm : (plan i s).micros ≠ []) {n : Nat}
    (hn : n < (plan i s).micros.length ∨ (n ≤ (plan i s).micros.length ∧ (plan i s).stop ≠ none)) :
    runEvents n (begin i s) = .next { s.runMicros ((plan i s).micros.take n) with seq := .busy i n } := by
  have hplan : plan i { s with seq := .busy i 0 } = plan i s := plan_congr i rfl rfl
  rw [begin_busy hs hm, runEvents_busy i _ 0 rfl n (by simpa [hplan] using hn), hplan, runMicros_seq]
  simp

/-- Settles O6: all events but the last are the small steps inside the operation; the step of the last completes it. -/
theorem smallStepsAgreeWithBigStep : Obligations.SmallStepsAgreeWithBigStep := by
  unfold Obligations.SmallStepsAgreeWithBigStep
  intro i s t h
  obtain ⟨hs, hstop, rfl⟩ := exec_next_iff.1 h
  rcases List.eq_nil_or_concat' (plan i s).micros with hms | ⟨ms, m, hms⟩
  · rw [hms]
    exact begin_without_event hs hms hstop
  · have hne : (plan i s).micros ≠ [] := by simp [hms]
    have hinside := runEvents_begin (n := ms.length) hs hne (.inl (by simp [hms]))
    have htake : (plan i s).micros.take ms.length = ms := by simp [hms]
    rw [htake] at hinside
    obtain ⟨hcfg, hdots, -⟩ := runMicros_frame ms s
    have hplan : plan i { s.runMicros ms with seq := .busy i ms.length } = plan i s := plan_congr i hcfg hdots
    have hlast : stepEvent { s.runMicros ms with seq := .busy i ms.length } =
        .next ((s.runMicros (ms ++ [m])).complete (plan i s).finish) := by
      rw [stepEvent_busy rfl, hplan]
      simp [advance, hms, hstop, micro_run_seq, runMicros_append]
      rfl
    rw [hms, List.length_append, runEvents_add, hinside]
    exact hlast

/-! Refusals. -/

theorem planSetdigit_stop_position (c : Params) (dots : Byte) {p : Nat} (g : Nat) (hp : 7 < p) :
    (planSetdigit c dots p g).stop = some (.positionOutOfRange p) := by
  rw [planSetdigit, positionStop_out hp]
  split
  · rfl
  · rw [planSetbyte, positionStop_out hp]; rfl

theorem planSetdigit_stop_glyph (c : Params) (dots : Byte) {p g : Nat} (hp : p ≤ 7) (hg : 15 < g) :
    (planSetdigit c dots p g).stop = some (.glyphOutOfRange g) := by
  simp [planSetdigit, glyphStop, Nat.not_le.2 hg, positionStop_ok hp, Plan.refusal]

theorem planSetled_stop_position (c : Params) {p : Nat} (col : Nat) (hp : 7 < p) :
    (planSetled c p col).stop = some (.positionOutOfRange p) := by
  rw [planSetled, positionStop_out hp]
  split <;> rfl

theorem planSetled_stop_colour (c : Params) {p col : Nat} (hp : p ≤ 7) (hcol : 3 < col) :
    (planSetled c p col).stop = some (.colourOutOfRange col) := by
  simp [planSetled, colourStop, Nat.not_le.2 hcol, positionStop_ok hp, Plan.refusal]

theorem planWrreg_stop_address (c : Params) {a : Nat} (d : Byte) (ha : 0x0F < a) :
    (planWrreg c a d).stop = some (.addressOutOfRange a) := by
  simp [planWrreg, addressStop, Nat.not_le.2 ha, Plan.refusal]

theorem planDctl_stop_level (c : Params) {l : Nat} (hl : 7 < l) : (planDctl c l).stop = some (.levelOutOfRange l) := by
  simp [planDctl, levelStop, Nat.not_le.2 hl, Plan.refusal]

/-- An expansion is not refused exactly where every write of it is in range (60_exceptions.md R192). -/
theorem planRequests_stop_eq_none_iff (c : Params) (dots : Byte) (rs : List DigitRequest) :
    (planRequests c dots rs).stop = none ↔ rs.all (·.inRange) = true := by
  constructor
  · intro h
    induction rs with
    | nil => rfl
    | cons q rs ih =>
      simp only [planRequests, List.map_cons, Plan.sequence] at h
      rcases planRequest_stop c dots q with ⟨hq, hstop⟩ | ⟨-, r, hstop, -⟩
      · rw [hstop] at h
        simp only [List.all_cons, hq, ih h, Bool.and_self]
      · rw [hstop] at h
        cases h
  · intro h
    rw [planRequests_ok c dots rs h]

/-- A code that no operation has is unassigned (30_encoding.md R94). -/
theorem hostOpOf_unassigned {op : Byte} (h : ∀ o : HostOp, hostCode o ≠ op) : hostOpOf op = none := by
  have hrows : ∀ r ∈ hostTable, r.1 = hostCode r.2 := by decide
  rw [hostOpOf, Option.map_eq_none_iff, List.find?_eq_none]
  intro r hr
  rw [hrows r hr, beq_iff_eq]
  exact h r.2

/-- Settles O7, cause by cause. -/
theorem refusalsAreTheListed : Obligations.RefusalsAreTheListed := by
  unfold Obligations.RefusalsAreTheListed
  refine ⟨fun s p v g col hs hp => ?position, fun s i hs hi hout => ?pseudo, fun s a d hs ha => ?address,
    fun s p g hs hp hg => ?glyph, fun s l hs hl => ?level, fun s p col hs hp hcol => ?colour,
    fun s op args rs hs hr ho => ?unassigned, fun s i hs => exec_busy hs i⟩
  case position =>
    exact ⟨perform_positionStop_refused _ _ hs hp, perform_positionStop_refused _ _ hs hp,
      perform_positionStop_refused _ _ hs hp, exec_refused hs (planSetdigit_stop_position _ _ g hp),
      exec_refused hs (planSetled_stop_position _ col hp)⟩
  case pseudo =>
    have hstop : (plan i s).stop ≠ none := by
      rw [plan_pseudo i s hi, Ne, planRequests_stop_eq_none_iff]
      simpa using hout
    obtain ⟨r, hr⟩ := Option.ne_none_iff_exists'.1 hstop
    exact ⟨r, exec_refused hs hr⟩
  case address => exact exec_refused hs (planWrreg_stop_address _ d ha)
  case glyph => exact exec_refused hs (planSetdigit_stop_glyph _ _ hp hg)
  case level => exact exec_refused hs (planDctl_stop_level _ hl)
  case colour => exact exec_refused hs (planSetled_stop_colour _ hp hcol)
  case unassigned =>
    refine step_undecoded (e := .unassignedOp op) hs hr ?_
    simp [decodeRequest, decodeHost, hostOpOf_unassigned ho]

/-- Settles O8: a plan is refused only where the request is none that has a meaning. -/
theorem definedRequestsComplete : Obligations.DefinedRequestsComplete := by
  unfold Obligations.DefinedRequestsComplete
  intro i s hs hi
  cases hstop : (plan i s).stop with
  | none => exact ⟨_, exec_next hs hstop⟩
  | some r =>
    obtain ⟨hundefined, -⟩ := plan_stop hstop
    rw [hi] at hundefined
    cases hundefined

/-- Everything an operation can answer with: a refusal is for a busy machine or for what the plan is refused for. -/
theorem exec_next_or_refused (i : Instr) (s : State) :
    (∃ t, exec i s = .next t) ∨ ∃ r, exec i s = .refused r ∧
      ((s.seq ≠ .idle ∧ r = .requestWhileBusy) ∨
       (s.seq = .idle ∧ isDefined s.cfg i = false ∧ refusedAs s.cfg r i)) := by
  by_cases hs : s.seq = .idle
  · cases hstop : (plan i s).stop with
    | none => exact .inl ⟨_, exec_next hs hstop⟩
    | some r => exact .inr ⟨r, exec_refused hs hstop, .inr ⟨hs, plan_stop hstop⟩⟩
  · exact .inr ⟨_, exec_busy hs i, .inl ⟨hs, rfl⟩⟩

/-- A busy machine stops only where its plan is refused. -/
theorem advance_next_or_refused (p : Plan) (i : Instr) (k : Nat) (s : State) :
    (∃ t, advance p i k s = .next t) ∨ ∃ r, advance p i k s = .refused r ∧ p.stop = some r := by
  unfold advance
  split
  · exact .inl ⟨_, rfl⟩
  · split <;> exact .inl ⟨_, rfl⟩
  · next r _ hstop => exact .inr ⟨r, rfl, hstop⟩
  · exact .inl ⟨_, rfl⟩

/-- Settles O9: an operation by `exec_next_or_refused`; a step along the cases of its definition. -/
theorem onlyListedCausesRefuse : Obligations.OnlyListedCausesRefuse := by
  unfold Obligations.OnlyListedCausesRefuse
  refine ⟨exec_next_or_refused, fun s => ?_⟩
  cases hs : s.seq with
  | busy i k =>
    rw [step_busy hs]
    rcases advance_next_or_refused (plan i s) i k s with ht | ⟨r, hr, hstop⟩
    · exact .inl ht
    · exact .inr ⟨r, hr, .inr ⟨i, k, rfl, plan_stop hstop⟩⟩
  | idle =>
    cases hq : s.requests with
    | nil => exact .inl ⟨s, step_waits hs hq⟩
    | cons q qs =>
      cases hd : decodeRequest s.cfg q with
      | error e => exact .inr ⟨_, step_undecoded hs hq hd, .inl ⟨q, qs, rfl, rfl, .inl ⟨e, hd, rfl⟩⟩⟩
      | ok i =>
        rw [step_request hs hq hd]
        rcases exec_next_or_refused i { s with requests := qs } with ht | ⟨r, hr, ⟨hbusy, -⟩ | ⟨-, hcause⟩⟩
        · exact .inl ht
        · exact absurd hs hbusy
        · exact .inr ⟨r, hr, .inl ⟨q, qs, rfl, rfl, .inr ⟨i, hd, hcause⟩⟩⟩

end Sys2Proof.Machine

/-! Pins (10_state.md R21 to R24), and what every operation keeps. -/

namespace Sys2Proof.Machine

/-! One bit of a register of the port. -/

@[simp] theorem Lines_get_set_same (b : Lines) (l : Line) (v : Bool) : (b.set l v).get l = v := by
  cases l <;> rfl

theorem Lines_get_set_other (b : Lines) {l m : Line} (v : Bool) (h : m ≠ l) : (b.set l v).get m = b.get m := by
  revert h
  cases l <;> cases m <;> simp

theorem Lines_set_get (b : Lines) {l : Line} {v : Bool} (h : b.get l = v) : b.set l v = b := by
  subst h
  cases l <;> rfl

/-- Settles O10: the bit written is one bit of the three lines' own; the event of a micro-operation is `micro_run_event`. -/
theorem eventWritesOneBit : Obligations.EventWritesOneBit := by
  unfold Obligations.EventWritesOneBit
  refine ⟨fun s l v => ⟨⟨?_, rfl, fun m hm => ?_, rfl, rfl, fun h => ?_, ?_⟩,
    ⟨?_, rfl, fun m hm => ?_, rfl, rfl, fun h => ?_, ?_⟩, rfl, fun _ => rfl⟩, fun s m => ?_⟩
  · exact Lines_get_set_same _ l v
  · exact Lines_get_set_other _ v hm
  · simp only [State_emit_gpio, Gpio.apply, Lines_set_get _ h]
  · exact State_emit_trace ..
  · exact Lines_get_set_same _ l v
  · exact Lines_get_set_other _ v hm
  · simp only [State_emit_gpio, Gpio.apply, Lines_set_get _ h]
  · exact State_emit_trace ..
  · obtain ⟨e, htrace, hgpio⟩ := micro_run_event m s
    exact ⟨e, hgpio, htrace⟩

/-- Settles O12, case by case of the level's definition. -/
theorem levelOfLine : Obligations.LevelOfLine := by
  unfold Obligations.LevelOfLine
  intro s l
  refine ⟨fun hd => ?_, fun v hd hv => ?_, fun hd hv ho => ?_, fun hd hv ho => ?_⟩
  · simp [State.level, hd]
  · simp [State.level, hd, hv]
  · simp [State.level, hd, hv, ho]
  · simp [State.level, hd, hv, ho]

/-! What every step keeps. -/

/-- Settles O54: no micro-operation changes a parameter. -/
theorem parametersNeverChange : Obligations.ParametersNeverChange := by
  unfold Obligations.ParametersNeverChange
  intro s t h
  exact step_preserves (P := fun u => u.cfg = s.cfg) (fun _ _ m _ u hu => (micro_run_frame m u).1.trans hu)
    (fun _ _ hu => hu) (fun _ _ hu => hu) (fun _ _ hu => hu) h rfl

theorem step_keeps_restDir {s t : State} (h : step s = .next t) : t.gpio.restDir = s.gpio.restDir :=
  step_preserves (P := fun u => u.gpio.restDir = s.gpio.restDir)
    (fun _ _ m _ u hu => by obtain ⟨e, -, hg⟩ := micro_run_event m u; rw [hg, Gpio_apply_restDir]; exact hu)
    (fun _ _ hu => hu) (fun _ _ hu => hu) (fun _ _ hu => hu) h rfl

theorem step_keeps_restOut {s t : State} (h : step s = .next t) : t.gpio.restOut = s.gpio.restOut :=
  step_preserves (P := fun u => u.gpio.restOut = s.gpio.restOut)
    (fun _ _ m _ u hu => by obtain ⟨e, -, hg⟩ := micro_run_event m u; rw [hg, Gpio_apply_restOut]; exact hu)
    (fun _ _ hu => hu) (fun _ _ hu => hu) (fun _ _ hu => hu) h rfl

/-- Settles O11: a bit of no line is one of the foreign bits, which every step keeps. -/
theorem foreignPortBitsKept : Obligations.ForeignPortBitsKept := by
  unfold Obligations.ForeignPortBitsKept
  intro s t n h hn
  have hcfg : t.cfg = s.cfg := parametersNeverChange s t h
  exact ⟨by simp only [State.dirBit, hcfg, hn, step_keeps_restDir h],
    by simp only [State.outBit, hcfg, hn, step_keeps_restOut h]⟩

/-! The actions of the transport operations, operands apart (30_encoding.md R83). -/

/-- The actions of SEND, whatever the byte. -/
def sendActions : List Action :=
  bitIndices.flatMap fun _ => [Action.setOut .clk false, .sendBit, .setOut .clk true]

/-- The actions of RECV. -/
def recvActions : List Action :=
  [Action.setDir .dio false, Action.setOut .dio true]
  ++ bitIndices.flatMap (fun _ => [Action.setOut .clk false, .settle, .sampleBit, .setOut .clk true])
  ++ [Action.setOut .dio false, Action.setDir .dio true]

/-- The actions of the read frame. -/
def readKeysActions : List Action :=
  .setOut .stb false :: sendActions ++ recvActions ++ recvActions ++ recvActions ++ recvActions ++ [.setOut .stb true]

theorem sendMicros_actions (b : Byte) : (sendMicros b).map (·.act) = sendActions := rfl

theorem recvMicros_actions : recvMicros.map (·.act) = recvActions := rfl

/-- Transfers before an event change no action. -/
theorem withPre_actions (ts : List Transfer) (ms : List Micro) : (withPre ts ms).map (·.act) = ms.map (·.act) := by
  cases ms <;> rfl

theorem readKeysMicros_actions (c : Params) : (readKeysMicros c).map (·.act) = readKeysActions := by
  simp only [readKeysMicros, keyByteMicros, List.map_append, withPre_actions, sendMicros_actions, recvMicros_actions]
  rfl

/-- The action is of no kind that releases strobe or clock. -/
def Action.keepsOutputs (a : Action) : Bool := a != .setDir .stb false && a != .setDir .clk false

/-- Only RECV's switch of the data line makes a line an input (41_command_protocol.md R139). -/
theorem plan_keepsOutputs (i : Instr) (s : State) : ((plan i s).micros.map (·.act)).all (·.keepsOutputs) = true := by
  refine plan_induction (Q := fun ms => (ms.map (·.act)).all (·.keepsOutputs) = true) rfl (fun ms ns hms hns => ?_)
    (by decide) (by decide) (fun b => ?_) (fun _ => by decide) (fun _ => by decide) (fun _ => ?_)
  · rw [List.map_append, List.all_append, hms, hns, Bool.and_self]
  · rw [sendMicros_actions]; decide
  · rw [readKeysMicros_actions]; decide

/-- The directions after a micro-operation that does not release strobe or clock. -/
theorem micro_run_keepsOutputs {m : Micro} (hm : m.act.keepsOutputs = true) (s : State) :
    (s.gpio.dir.stb = true → (m.run s).gpio.dir.stb = true) ∧
    (s.gpio.dir.clk = true → (m.run s).gpio.dir.clk = true) := by
  obtain ⟨-, -, -, -, -, hpre, -⟩ := transfers_run_frame m.pre s
  rw [← hpre]
  unfold Micro.run
  generalize List.foldl _ s m.pre = u
  cases hact : m.act with
  | setDir l d =>
    rw [hact] at hm
    cases l <;> cases d <;> simp_all [Action.run, Action.keepsOutputs]
  | _ => exact ⟨id, id⟩

/-- Settles O13: no micro-operation of any plan makes strobe or clock an input. -/
theorem strobeAndClockNeverReleased : Obligations.StrobeAndClockNeverReleased := by
  unfold Obligations.StrobeAndClockNeverReleased
  intro s t h
  have keeps : ∀ (i : Instr) (v : State), ∀ m ∈ (plan i v).micros, m.act.keepsOutputs = true := fun i v m hm =>
    List.all_eq_true.1 (plan_keepsOutputs i v) _ (List.mem_map_of_mem hm)
  exact ⟨step_preserves (P := fun u => u.gpio.dir.stb = true)
      (fun i v m hm u hu => (micro_run_keepsOutputs (keeps i v m hm) u).1 hu)
      (fun _ _ hu => hu) (fun _ _ hu => hu) (fun _ _ hu => hu) h,
    step_preserves (P := fun u => u.gpio.dir.clk = true)
      (fun i v m hm u hu => (micro_run_keepsOutputs (keeps i v m hm) u).2 hu)
      (fun _ _ hu => hu) (fun _ _ hu => hu) (fun _ _ hu => hu) h⟩

/-! Delays and samples (70_reset_and_hazards.md R230). -/

/-- The event of a micro-operation is a delay, or a sample, exactly where its action is. -/
theorem micro_run_kind (m : Micro) (s : State) : ∃ e, (m.run s).trace = s.trace ++ [e] ∧
    e.isDelay = (m.act == .settle) ∧ e.isSample = (m.act == .sampleBit) := by
  obtain ⟨-, -, -, -, -, -, hpre, -⟩ := transfers_run_frame m.pre s
  have htrace : ∀ e, (State.emit e (m.pre.foldl (fun s t => t.run s) s)).trace = s.trace ++ [e] := fun e => by
    simp [State.trace, hpre]
  unfold Micro.run
  cases m.act <;> exact ⟨_, htrace _, rfl, rfl⟩

theorem runMicros_kinds (ms : List Micro) (s : State) : ∃ es, (s.runMicros ms).trace = s.trace ++ es ∧
    es.countP (·.isDelay) = (ms.map (·.act)).count .settle ∧
    es.countP (·.isSample) = (ms.map (·.act)).count .sampleBit := by
  induction ms generalizing s with
  | nil => exact ⟨[], by simp⟩
  | cons m ms ih =>
    obtain ⟨e, htrace, hdelay, hsample⟩ := micro_run_kind m s
    obtain ⟨es, htraces, hdelays, hsamples⟩ := ih (m.run s)
    refine ⟨e :: es, by simp [htraces, htrace], ?_, ?_⟩
    · simp [List.countP_cons, List.count_cons, hdelays, hdelay]
    · simp [List.countP_cons, List.count_cons, hsamples, hsample]

/-- Delays and samples stand in the plans of the operations that receive, eight of each for a byte. -/
theorem plan_kinds (i : Instr) (s : State) :
    ((plan i s).micros.map (·.act)).count .settle = 8 * bytesReceived i ∧
    ((plan i s).micros.map (·.act)).count .sampleBit = 8 * bytesReceived i := by
  by_cases hi : bytesReceived i = 0
  · rw [hi]
    refine plan_induction (Q := fun ms => (ms.map (·.act)).count .settle = 0 ∧ (ms.map (·.act)).count .sampleBit = 0)
      (by decide) (fun ms ns hms hns => ?_) (by decide) (by decide) (fun b => ?_) (fun h => ?_) (fun _ => by decide)
      (fun h => ?_)
    · simp only [List.map_append, List.count_append, hms, hns, and_self]
    · rw [sendMicros_actions]; decide
    · subst h; cases hi
    · omega
  · cases i with
    | recv =>
      change ((recvMicros.map (·.act)).count _ = _ ∧ (recvMicros.map (·.act)).count _ = _)
      decide
    | getbuttons | cmdDataReadKeys =>
      change (((readKeysMicros s.cfg).map (·.act)).count _ = _ ∧ ((readKeysMicros s.cfg).map (·.act)).count _ = _)
      rw [readKeysMicros_actions]
      decide
    | _ => exact absurd rfl hi

/-- Settles O56: the events are of the kinds of the plan's actions. -/
theorem oneDelayAndSamplePerReceivedBit : Obligations.OneDelayAndSamplePerReceivedBit := by
  unfold Obligations.OneDelayAndSamplePerReceivedBit
  intro i s t es h htrace
  obtain ⟨-, -, rfl⟩ := exec_next_iff.1 h
  obtain ⟨es', htrace', hdelays, hsamples⟩ := runMicros_kinds (plan i s).micros s
  obtain rfl : es' = es := List.append_cancel_left (htrace'.symm.trans htrace)
  rw [hdelays, hsamples]
  exact plan_kinds i s

/-! What every operation keeps, and the state at reset (10_state.md R39, R40). -/

/-- Settles O53: only SETDOTS ends with a write of `DOTS`, and no micro-operation makes one. -/
theorem onlySetdotsWritesDots : Obligations.OnlySetdotsWritesDots := by
  unfold Obligations.OnlySetdotsWritesDots
  refine ⟨fun i s t h hi => exec_keeps_dots hi h, fun s t i k hs hi h => ?_, fun c => rfl, rfl⟩
  rw [step_busy hs] at h
  have micro : ∀ m : Micro, (m.run s).dots = s.dots := fun m => (micro_run_frame m s).2.1
  rcases advance_next h with ⟨m, -, -, rfl⟩ | ⟨m, -, -, -, rfl⟩ | ⟨-, -, rfl⟩
  · exact micro m
  · rw [State_complete_dots, plan_keeps_dots hi]; exact micro m
  · rw [State_complete_dots, plan_keeps_dots hi]

/-- Settles O55: what a run of micro-operations keeps, and what the end of an operation writes. -/
theorem frameOfEveryOperation : Obligations.FrameOfEveryOperation := by
  unfold Obligations.FrameOfEveryOperation
  intro i s t h
  obtain ⟨-, -, rfl⟩ := exec_next_iff.1 h
  obtain ⟨hcfg, -, -, -, hrequests, hrestDir, hrestOut, es, htrace, -⟩ := runMicros_frame (plan i s).micros s
  exact ⟨hcfg, hrequests, rfl, rfl, hrestDir, hrestOut, es, htrace⟩

theorem resetWith_inv {c : Params} (hc : c.legal) : (State.resetWith c).inv :=
  ⟨hc, rfl, ⟨rfl, fun _ => ⟨rfl, rfl, rfl, rfl, rfl⟩⟩, fun h => absurd rfl h⟩

/-- Settles O58. -/
theorem resetMeetsInvariant : Obligations.ResetMeetsInvariant := by
  unfold Obligations.ResetMeetsInvariant
  exact ⟨fun c hc => resetWith_inv hc, resetWith_inv (by decide)⟩

/-- Settles O59, field by field. -/
theorem resetState : Obligations.ResetState := by
  unfold Obligations.ResetState
  refine ⟨fun c => ⟨rfl, rfl, rfl, rfl, fun _ => rfl, fun a ha => ?_, fun a ha => State_register_absent ha, rfl, rfl, rfl,
    rfl, rfl, rfl, rfl⟩, rfl⟩
  exact if_pos (Nat.le_of_lt_succ ha)

/-- Each address is the digit or the LED address of its half (42_display_state.md R153). -/
theorem address_cases {a : Nat} (ha : a ≤ 0x0F) : ∃ p, p ≤ 7 ∧ (a = digitRegister p ∨ a = ledRegister p) := by
  unfold digitRegister ledRegister
  exact ⟨a / 2, by omega, by omega⟩

/-- Settles O31: arithmetic of `2 * p` and `1 + 2 * p`. -/
theorem registerMapCoversAddresses : Obligations.RegisterMapCoversAddresses := by
  unfold Obligations.RegisterMapCoversAddresses
  refine ⟨fun p q h => ?_, fun p q => ?_, fun a => ⟨address_cases, ?_⟩, fun p => ?_⟩ <;> unfold digitRegister ledRegister
  · omega
  · omega
  · rintro ⟨p, hp, h⟩
    omega
  · omega

end Sys2Proof.Machine

/-! Bus Transport (40_bus_transport.md): FOPEN, FCLOSE, SEND, RECV. -/

namespace Sys2Proof.Machine

/-! What an operation leaves behind, from what its run reaches. -/

/-- The operation of a plan that is not refused. -/
theorem exec_of_plan {i : Instr} {s : State} {ms : List Micro} {f : Finish} (hp : plan i s = ⟨ms, f, none⟩)
    (hs : s.seq = .idle) : exec i s = .next ((s.runMicros ms).complete f) := by
  rw [exec_next hs (by rw [hp]), hp]

theorem eq_complete_of_exec {i : Instr} {s t : State} {ms : List Micro} {f : Finish} (hp : plan i s = ⟨ms, f, none⟩)
    (h : exec i s = .next t) : t = (s.runMicros ms).complete f := by
  obtain ⟨-, -, rfl⟩ := exec_next_iff.1 h
  rw [hp]

/-- `u` is the state `s` after the events `es`, which leave the levels `o` and take no sample; nothing is said of the working
registers and the far end. -/
def State.writes (s : State) (es : List Event) (o : Lines) (u : State) : Prop :=
  ∃ w f, u = { s with history := es.reverse ++ s.history, gpio := { s.gpio with out := o }, work := w, far := f }

theorem writes_trans {s u v : State} {es es' : List Event} {o o' : Lines} (h : s.writes es o u)
    (h' : u.writes es' o' v) : s.writes (es ++ es') o' v := by
  obtain ⟨w, f, rfl⟩ := h
  obtain ⟨w', f', rfl⟩ := h'
  exact ⟨w', f', by simp⟩

theorem writes_cfg {s u : State} {es : List Event} {o : Lines} (h : s.writes es o u) : u.cfg = s.cfg := by
  obtain ⟨w, f, rfl⟩ := h
  rfl

/-- Such a run, as an operation without a result. -/
theorem complete_of_writes {s u : State} {es : List Event} {o : Lines} (h : s.writes es o u) :
    (u.complete .nothing).trace = s.trace ++ es ∧ (u.complete .nothing).gpio = { s.gpio with out := o } ∧
      (u.complete .nothing).result = none ∧ s.onlyBus (u.complete .nothing) ∧ s.noSample (u.complete .nothing) := by
  obtain ⟨w, f, rfl⟩ := h
  exact ⟨by simp [State.trace], rfl, rfl, ⟨rfl, rfl, rfl, rfl, rfl, rfl⟩, rfl, rfl⟩

/-! What is known of a bus that is ready. -/

theorem ready_seq {s : State} (h : s.ready) : s.seq = .idle := h.1.1

theorem ready_legal {s : State} (h : s.ready) : s.cfg.legal := h.2.1

theorem ready_following {s : State} (h : s.ready) : s.far.status = .following := h.2.2.1

/-- What is known of the far end being the same, its registers, display control and key bytes are. -/
theorem same_of_far_keeps {s t : State} (hstatus : t.far.status = s.far.status) (hmem : t.far.mem = s.far.mem)
    (hctl : t.far.ctl = s.far.ctl) (hkeys : t.far.keys = s.far.keys) : s.sameMemory t ∧ s.sameControl t :=
  ⟨sameMemoryBut_of_read (fun h => hstatus.trans h) fun a _ => by rw [hmem],
    sameControl_of_eq (fun h => hstatus.trans h) hctl hkeys⟩

/-! The far end at the strobe's edges (20_memory.md R66). -/

/-- The strobe falls: a model that follows the bus opens a frame, where the strobe was high. -/
theorem observe_strobe_low (c : Params) (g : Gpio) (f : FarEnd) : f.observe c g (.setOut .stb false) =
    if f.status = .following ∧ g.out.stb = true then { f with frame := some ⟨[], []⟩ } else f := by
  cases hst : f.status <;> simp [FarEnd.observe, FarEnd.see, hst]

theorem observe_strobe_high_closed (c : Params) (g : Gpio) {f : FarEnd} (h : f.frame = none) :
    f.observe c g (.setOut .stb true) = f := by
  cases hst : f.status <;> simp [FarEnd.observe, FarEnd.see, hst, h]

theorem observe_strobe_high_open (c : Params) (g : Gpio) {f : FarEnd} {fr : Frame} (hst : f.status = .following)
    (h : f.frame = some fr) : f.observe c g (.setOut .stb true) = f.close c fr := by
  simp [FarEnd.observe, FarEnd.see, hst, h]

theorem observe_not_following (c : Params) (g : Gpio) (e : Event) {f : FarEnd} (h : f.status ≠ .following) :
    f.observe c g e = f := by
  cases hst : f.status <;> simp [FarEnd.observe, hst] at h ⊢

theorem receive_frame (c : Params) (items : List Item) (f : FarEnd) : (f.receive c items).frame = none := by
  unfold FarEnd.receive
  split
  · split <;> rfl
  · split <;> rfl
  · split <;> rfl
  · rfl

theorem close_frame (c : Params) (fr : Frame) (f : FarEnd) : (f.close c fr).frame = none := by
  unfold FarEnd.close
  split
  · exact receive_frame ..
  · rfl

/-- A frame that leaves the model following has stored at its cursor only (20_memory.md R68). -/
theorem close_keeps {c : Params} {fr : Frame} {f : FarEnd} (hst : (f.close c fr).status = .following) {a : Nat}
    (ha : ∀ x, cursorOf c fr.items = some x → a ≠ x.toNat) :
    Memory.read (f.close c fr).mem a = Memory.read f.mem a := by
  unfold FarEnd.close at hst ⊢
  split at hst
  · exact receive_keeps c _ f hst a ha
  · cases hst

/-- The level of an input without pull-up: what the environment drives, or a free value (10_state.md R23). -/
theorem level_of_low_input {s : State} {l : Line} (hd : s.gpio.dir.get l = false) (ho : s.gpio.out.get l = false) :
    s.level l = (s.drive l).getD (Config.floating l s.draws) := by
  cases hdrive : s.drive l <;> simp [State.level, hd, ho, hdrive]

/-- Settles O14: the one event falls on the strobe's bit, and of the far end it can only open a frame. -/
theorem fopenLowersStrobe : Obligations.FopenLowersStrobe := by
  unfold Obligations.FopenLowersStrobe
  intro s hs
  have hfar := observe_strobe_low s.cfg s.gpio s.far
  have hkeeps : s.sameMemory ((s.emit (.setOut .stb false)).complete .nothing) ∧
      s.sameControl ((s.emit (.setOut .stb false)).complete .nothing) := by
    refine same_of_far_keeps ?_ ?_ ?_ ?_ <;> rw [State_complete_far, State_emit_far, hfar] <;> split <;> rfl
  refine ⟨_, exec_of_plan rfl hs, State_emit_trace .., rfl, rfl, ⟨rfl, rfl, rfl, rfl, rfl, rfl⟩, ⟨rfl, rfl⟩,
    hkeeps.1, hkeeps.2, fun hlow => ⟨?_, ?_⟩, fun hst hhigh => ?_, fun hd => ?_, fun hd => ?_, rfl⟩
  · exact congrArg (fun o => { s.gpio with out := o }) (Lines_set_get s.gpio.out (l := .stb) hlow)
  · exact hfar.trans (by simp [hlow])
  · exact congrArg FarEnd.frame (hfar.trans (if_pos ⟨hst, hhigh⟩))
  · exact if_pos hd
  · exact level_of_low_input hd rfl

/-- Settles O15: the frame in progress, where the model follows one, is closed; nothing else is seen at a rising strobe. -/
theorem fcloseRaisesStrobe : Obligations.FcloseRaisesStrobe := by
  unfold Obligations.FcloseRaisesStrobe
  intro s hs
  refine ⟨_, exec_of_plan rfl hs, State_emit_trace .., rfl, rfl, ⟨rfl, rfl, rfl, rfl, rfl, rfl⟩, ⟨rfl, rfl⟩,
    fun hhigh => ?_, fun hfr => ?_, fun fr hst hfr => ?_, fun hst => ?_, rfl, fun hsame => ?_⟩
  · exact congrArg (fun o => { s.gpio with out := o }) (Lines_set_get s.gpio.out (l := .stb) hhigh)
  · exact observe_strobe_high_closed _ _ hfr
  · exact observe_strobe_high_open _ _ hst hfr
  · change (s.far.observe s.cfg s.gpio (.setOut .stb true)).frame = none
    cases hfr : s.far.frame with
    | none => rw [observe_strobe_high_closed _ _ hfr, hfr]
    | some fr => rw [observe_strobe_high_open _ _ hst hfr, close_frame]
  · refine sameMemoryBut_of_read (fun hst => hsame.trans hst) fun a ha => ?_
    change (s.far.observe s.cfg s.gpio (.setOut .stb true)).status = _ at hsame
    change Memory.read (s.far.observe s.cfg s.gpio (.setOut .stb true)).mem a = _
    by_cases hst : s.far.status = .following
    · cases hfr : s.far.frame with
      | none => rw [observe_strobe_high_closed _ _ hfr]
      | some fr =>
        rw [observe_strobe_high_open _ _ hst hfr] at hsame ⊢
        refine close_keeps (hsame.trans hst) fun x hx hax => ha ⟨x, ?_, hax⟩
        simp only [FarEnd.cursor, hfr, hx]
    · rw [observe_not_following _ _ _ hst]

/-! SEND. -/

theorem sendEvents_length (b : Byte) : (sendEvents b).length = 24 := rfl

/-- Eight rising edges, at which the data line shows the bits, whatever the levels before (40_bus_transport.md R115). -/
theorem risingLevels_sendEvents (clk dio : Bool) (b : Byte) : risingLevels clk dio (sendEvents b) = bitsOf b := rfl

theorem dataWrittenLow_sendEvents (clk : Bool) (b : Byte) : dataWrittenLow clk (sendEvents b) = true := rfl

theorem bitsOf_length (b : Byte) : (bitsOf b).length = 8 := rfl

theorem bitsOf_getElem? (b : Byte) {i : Nat} (hi : i < 8) : (bitsOf b)[i]? = some (b.getLsbD i) := by
  simp [bitsOf, hi]

theorem sendEvents_no_setDir {b : Byte} {e : Event} (he : e ∈ sendEvents b) (l : Line) (d : Bool) : e ≠ .setDir l d := by
  simp only [sendEvents, List.mem_flatMap, sendCellEvents, List.mem_cons, List.not_mem_nil, or_false] at he
  obtain ⟨i, -, rfl | rfl | rfl⟩ := he <;> exact nofun

theorem sendMicros_writes (b : Byte) (s : State) :
    s.writes (sendEvents b) ⟨s.gpio.out.stb, true, b.getLsbD 7⟩ (s.runMicros (sendMicros b)) :=
  ⟨_, _, sendMicros_run b s⟩

/-- SEND changes of the far end only the frame in progress. -/
theorem sendMicros_far_keeps (b : Byte) (s : State) :
    (s.runMicros (sendMicros b)).far.status = s.far.status ∧ (s.runMicros (sendMicros b)).far.mem = s.far.mem ∧
    (s.runMicros (sendMicros b)).far.ctl = s.far.ctl ∧ (s.runMicros (sendMicros b)).far.keys = s.far.keys := by
  obtain ⟨hmem, hctl, hkeys, hstatus⟩ := takeBits_keeps ((bitsOf b).map .tx) s.far
  rw [sendMicros_run]
  cases hd : s.gpio.dir.dio
  · simp
  · simp [hmem, hctl, hkeys, hstatus]

/-- Settles O16, from the run of SEND in closed form. -/
theorem sendTransmitsByte : Obligations.SendTransmitsByte := by
  unfold Obligations.SendTransmitsByte
  intro b s hs
  obtain ⟨htrace, hgpio, hresult, hbus, hsample⟩ := complete_of_writes (sendMicros_writes b s)
  obtain ⟨hstatus, hmem, hctl, hkeys⟩ := sendMicros_far_keeps b s
  obtain ⟨hmemory, hcontrol⟩ :=
    same_of_far_keeps (s := s) (t := (s.runMicros (sendMicros b)).complete .nothing) hstatus hmem hctl hkeys
  refine ⟨_, exec_of_plan rfl hs, htrace, sendEvents_length b, hgpio, hresult, hbus, hsample, hmemory,
    hcontrol, fun hfr => ?_, fun clk dio => ?_, rfl⟩
  · have hidle := takeBits_idle s.far ((bitsOf b).map .tx) fun _ => hfr
    rw [State_complete_far, sendMicros_run]
    simp only [hidle, ite_self]
  · rw [risingLevels_sendEvents, bitsOf_length]

/-- Settles O17: the levels at the rising edges are the bits of the byte, in order. -/
theorem sendShowsByteOnLines : Obligations.SendShowsByteOnLines := by
  unfold Obligations.SendShowsByteOnLines
  intro b s t es hclk hdio _ h htrace
  obtain rfl := eq_complete_of_exec rfl h
  obtain ⟨htrace', hgpio, -⟩ := complete_of_writes (sendMicros_writes b s)
  obtain rfl : sendEvents b = es := List.append_cancel_left (htrace'.symm.trans htrace)
  rw [risingLevels_sendEvents, hgpio]
  exact ⟨bitsOf_length b, fun i hi => bitsOf_getElem? b hi, byteOfBits_bitsOf b, dataWrittenLow_sendEvents _ b,
    fun e he => sendEvents_no_setDir he, hclk, hdio⟩

/-! RECV. -/

theorem recvEvents_length (t : Nat) {vs : List Bool} (h : vs.length = 8) : (recvEvents t vs).length = 36 := by
  have hcells : (vs.flatMap (recvCellEvents t)).length = 4 * vs.length := by
    rw [List.length_flatMap]
    simp [recvCellEvents, Nat.mul_comm]
  simp [recvEvents, hcells, h]

theorem answers_length (s : State) (j : Nat) : (s.answers j).length = 8 := rfl

/-- What the environment does not drive is 1 (10_state.md R23). -/
theorem byteReceived_undriven {s : State} (h : ∀ j, j < 8 → s.env[j]? = some none) : s.byteReceived 0 = 0xFF := by
  have hanswers : s.answers 0 = (List.range 8).map fun _ => true :=
    List.map_congr_left fun i hi => by simp [State.answer, h i (List.mem_range.1 hi)]
  rw [State.byteReceived, hanswers]
  decide

theorem exec_recv_result {s t : State} (h : exec .recv s = .next t) : t.result = some (.byte (s.byteReceived 0)) := by
  obtain rfl := eq_complete_of_exec rfl h
  rw [recvMicros_run]
  rfl

/-- Settles O18, from the run of RECV in closed form. -/
theorem recvReceivesByte : Obligations.RecvReceivesByte := by
  unfold Obligations.RecvReceivesByte
  intro s hs
  have hexec : exec .recv s = .next ((s.runMicros recvMicros).complete .returnRxb) := exec_of_plan rfl hs
  have hresult := exec_recv_result hexec
  rw [recvMicros_run] at hexec hresult
  obtain ⟨hmem, hctl, hkeys, hstatus⟩ := takeBits_keeps ((s.answers 0).map .rx) s.far
  refine ⟨_, s.byteReceived 0, hexec, by simp [State.trace], recvEvents_length _ (answers_length s 0), hresult,
    fun i hi => ?_, rfl, ⟨rfl, rfl, rfl, rfl, rfl, rfl⟩, rfl, rfl, same_of_far_keeps hstatus hmem hctl hkeys⟩
  rw [byteReceived_bit s 0 i hi, Nat.mul_zero, Nat.zero_add]

/-- Settles O19: every sample of a line that nothing drives is 1. -/
theorem recvUndrivenIsAllOnes : Obligations.RecvUndrivenIsAllOnes := by
  unfold Obligations.RecvUndrivenIsAllOnes
  intro s t hundriven h
  rw [exec_recv_result h, byteReceived_undriven hundriven]

/-- Settles O20: the eight bits of a SEND, or of a RECV, make one item of the frame that is open. -/
theorem frameGrowsByItems : Obligations.FrameGrowsByItems := by
  unfold Obligations.FrameGrowsByItems
  intro s t items hst hfr
  refine ⟨fun b hd h => ?_, fun b h hresult => ?_⟩
  · obtain rfl := eq_complete_of_exec rfl h
    rw [State_complete_far, sendMicros_run, if_pos hd, takeBits_tx _ items _ (bitsOf_length b) hst hfr, byteOfBits_bitsOf]
  · obtain rfl : s.byteReceived 0 = b := by
      rw [exec_recv_result h, Option.some.injEq, Result.byte.injEq] at hresult
      exact hresult
    obtain rfl := eq_complete_of_exec rfl h
    rw [State_complete_far, recvMicros_run, takeBits_rx _ items _ (answers_length s 0) hst hfr, State.byteReceived]

end Sys2Proof.Machine

/-! Command Protocol (41_command_protocol.md): COMMAND, WRREG, DCTL, GETBUTTONS, INIT, and the far end that receives their
frames (20_memory.md R66 to R69). -/

namespace Sys2Proof.Machine

/-! What a frame does to the far end. -/

/-- A complete frame acts on the registers, whatever frame they were collected in. -/
theorem receive_withFrame (c : Params) (items : List Item) (f : FarEnd) (fr : Option Frame) :
    FarEnd.receive c items { f with frame := fr } = f.receive c items := by
  unfold FarEnd.receive
  split
  · rfl
  · rfl
  · rfl
  · rfl

theorem receive_single_unknown {c : Params} {b : Byte} (h : wireOpOf c b = none) (f : FarEnd) :
    (f.receive c [.tx b]).status = .refused := by
  simp [FarEnd.receive, decodeWire, h, FarEnd.refuse]

/-- A frame of one byte stores nothing (20_memory.md R68). -/
theorem receive_single_keeps {c : Params} {b : Byte} {f : FarEnd} (h : (f.receive c [.tx b]).status = .following) :
    (f.receive c [.tx b]).mem = f.mem := by
  simp only [FarEnd.receive] at h ⊢
  split at h
  · rfl
  · rfl
  · rfl
  · cases h

/-! One command frame (41_command_protocol.md R131). -/

theorem commandEvents_length (b : Byte) : (commandEvents b).length = 26 := rfl

theorem commandMicros_writes (b : Byte) (s : State) :
    s.writes (commandEvents b) ⟨true, true, b.getLsbD 7⟩ (s.runMicros (commandMicros b)) :=
  ⟨_, _, commandMicros_run b s⟩

/-- A ready bus delivers the frame `[TX(b)]` (20_memory.md R66). -/
theorem commandMicros_far_of_ready (b : Byte) {s : State} (h : s.ready) :
    (s.runMicros (commandMicros b)).far = s.far.receive s.cfg [.tx b] := by
  obtain ⟨⟨-, hdir, hstb, -⟩, -, hst, -⟩ := h
  rw [commandMicros_far b s (by rw [hdir]) hstb hst, receive_withFrame]

/-- A run that ends in the idle configuration with the model still following and no frame open leaves the bus ready. -/
theorem runMicros_ready {ms : List Micro} {s : State} (h : s.ready) (hidle : (s.runMicros ms).gpio.idle)
    (hst : (s.runMicros ms).far.status = .following) (hfr : (s.runMicros ms).far.frame = none) :
    (s.runMicros ms).ready := by
  obtain ⟨hcfg, -, hseq, -⟩ := runMicros_frame ms s
  exact ⟨⟨hseq.trans (ready_seq h), hidle⟩, by rw [hcfg]; exact ready_legal h, hst, hfr⟩

/-- After a command frame that the far end accepts the bus is ready again. -/
theorem commandMicros_ready {b : Byte} {s : State} (h : s.ready)
    (hst : (s.far.receive s.cfg [.tx b]).status = .following) : (s.runMicros (commandMicros b)).ready := by
  rw [← commandMicros_far_of_ready b h] at hst
  exact runMicros_ready h (commandMicros_idle b h.1.2) hst (by rw [commandMicros_far_of_ready b h, receive_frame])

/-- The end of an operation leaves the lines and the far end as they are. -/
theorem complete_ready {s : State} (h : s.ready) (f : Finish) : (s.complete f).ready := by
  obtain ⟨⟨-, hidle⟩, hrest⟩ := h
  exact ⟨⟨rfl, hidle⟩, hrest⟩

/-- Settles O21, from the run of a command frame and the frame the far end receives. -/
theorem commandSendsOneFrame : Obligations.CommandSendsOneFrame := by
  unfold Obligations.CommandSendsOneFrame
  intro b s hs
  obtain ⟨htrace, hgpio, hresult, hbus, hsample⟩ := complete_of_writes (commandMicros_writes b s)
  refine ⟨_, exec_of_plan rfl hs, htrace, commandEvents_length b, hgpio, hresult, hbus, hsample, fun hready => ?_, rfl⟩
  rw [State_complete_far, commandMicros_far_of_ready b hready]
  refine ⟨rfl, fun hop => receive_single_unknown hop _, fun hst => ?_⟩
  refine sameMemoryBut_of_read (fun _ => ?_) fun a _ => ?_ <;>
    rw [State_complete_far, commandMicros_far_of_ready b hready]
  · exact hst
  · rw [receive_single_keeps hst]

/-- The display-control byte of a level (30_encoding.md R90). -/
theorem displayControlByte_ofNat (c : Params) {l : Nat} (hl : l ≤ 7) :
    displayControlByte c (BitVec.ofNat 3 l) = c.cmdDisplayOn ||| BitVec.ofNat 8 l := by
  rw [displayControlByte]
  interval_cases l <;> rfl

/-- What a display-control frame does to the far end of a ready bus (20_memory.md R68). -/
theorem displayControl_ready (l : BitVec 3) {s t : State} (h : s.ready)
    (ht : t = (s.runMicros (commandMicros (displayControlByte s.cfg l))).complete .nothing) :
    s.sameMemory t ∧ t.controlHolds l ∧ t.far.keys = s.far.keys ∧ t.keyBytes = s.keyBytes ∧ t.ready := by
  have hreceive := receive_display s.cfg (ready_legal h) l s.far
  have hready := commandMicros_ready h (by rw [hreceive]; exact ready_following h)
  have hfar : t.far = s.far.displayOn l := by
    rw [ht, State_complete_far, commandMicros_far_of_ready _ h, hreceive]
  have hst : s.far.status = .following → t.far.status = .following := fun hst => by rw [hfar]; exact hst
  refine ⟨sameMemoryBut_of_read hst fun a _ => by rw [hfar]; rfl, controlHolds_of_ctl (by rw [hfar]; rfl),
    by rw [hfar]; rfl, ?_, by rw [ht]; exact complete_ready hready _⟩
  rw [State_keyBytes_of_following (ready_following h), State_keyBytes_of_following (hst (ready_following h)), hfar]
  rfl

/-- Settles O24: the command frame of the display-control byte. -/
theorem dctlSendsDisplayControl : Obligations.DctlSendsDisplayControl := by
  unfold Obligations.DctlSendsDisplayControl
  intro l s hs hl
  have hplan : plan (.dctl l) s = ⟨commandMicros (displayControlByte s.cfg (BitVec.ofNat 3 l)), .nothing, none⟩ := by
    rw [plan, planDctl, levelStop_ok hl, plan_guarded_none]
  obtain ⟨htrace, hgpio, hresult, hbus, hsample⟩ :=
    complete_of_writes (commandMicros_writes (displayControlByte s.cfg (BitVec.ofNat 3 l)) s)
  rw [← displayControlByte_ofNat s.cfg hl]
  refine ⟨_, exec_of_plan hplan hs, htrace, hgpio, hresult, hbus, hsample, fun hready => ?_⟩
  obtain ⟨hmemory, hcontrol, hkeys, hkeyBytes, hready'⟩ := displayControl_ready _ hready rfl
  exact ⟨hcontrol, hmemory, hkeys, hkeyBytes, hready'⟩

/-! One register write (41_command_protocol.md R132, R133). -/

theorem plan_wrreg {a : Nat} (ha : a ≤ 0x0F) (d : Byte) (s : State) :
    plan (.wrreg a d) s = ⟨wrregMicros s.cfg a d, .nothing, none⟩ := by
  rw [plan, planWrreg, addressStop_ok ha, plan_guarded_none]

theorem plan_setbyte {p : Nat} (hp : p ≤ 7) (v : Byte) (s : State) :
    plan (.setbyte p v) s = ⟨wrregMicros s.cfg (2 * p) (digitByte s.dots p v), .nothing, none⟩ := by
  rw [plan, planSetbyte, positionStop_ok hp, plan_guarded_none, digitRegister]

theorem plan_setdigit {p g : Nat} (hp : p ≤ 7) (hg : g ≤ 15) (s : State) :
    plan (.setdigit p g) s = ⟨wrregMicros s.cfg (2 * p) (digitByte s.dots p (glyph s.cfg g)), .nothing, none⟩ := by
  rw [plan, planSetdigit, glyphStop_ok hg]
  exact plan_setbyte hp _ s

theorem plan_setled {p col : Nat} (hp : p ≤ 7) (hcol : col ≤ 3) (s : State) : plan (.setled p col) s =
    ⟨wrregMicros s.cfg (1 + 2 * p) (ledByte s.cfg (colourGreen col) (colourRed col)), .nothing, none⟩ := by
  rw [plan, planSetled, colourStop_ok hcol, positionStop_ok hp, plan_guarded_none, ledRegister]

/-- Settles O22: WRREG's run in closed form. -/
theorem wrregSendsTwoFrames : Obligations.WrregSendsTwoFrames := by
  unfold Obligations.WrregSendsTwoFrames
  intro a d s hs ha
  obtain ⟨htrace, hgpio, hresult, hbus, hsample⟩ := wrregMicros_complete d ha rfl
  exact ⟨_, exec_of_plan (plan_wrreg ha d s) hs, htrace, wrregEvents_length .., hgpio, hresult, hbus, hsample⟩

/-- An operation that is one register write stores its byte on a ready bus and nothing else. -/
theorem exec_stores_one {i : Instr} {s : State} {a : Nat} {v : Byte} (h : s.ready) (ha : a ≤ 0x0F)
    (hplan : plan i s = ⟨wrregMicros s.cfg a v, .nothing, none⟩) :
    ∃ t, exec i s = .next t ∧ t.registerHolds a v ∧ s.sameMemoryBut (fun b => b = a) t ∧ s.sameControl t ∧ t.ready := by
  have hfar := wrregMicros_far a v s h ha
  have hst : s.far.status = .following →
      ((s.runMicros (wrregMicros s.cfg a v)).complete .nothing).far.status = .following := fun hst => by
    rw [State_complete_far, hfar]; exact hst
  refine ⟨_, exec_of_plan hplan (ready_seq h), registerHolds_of_read ?_ ha, sameMemoryBut_of_read hst fun b hb => ?_,
    sameControl_of_eq hst ?_ ?_, complete_ready (wrregMicros_ready a v s h ha) _⟩ <;> rw [State_complete_far, hfar]
  · exact memory_read_write_same ..
  · exact memory_read_write_other _ _ _ _ hb

/-- Settles O23: each of the four operations is one register write. -/
theorem singleWritesStoreOneRegister : Obligations.SingleWritesStoreOneRegister := by
  unfold Obligations.SingleWritesStoreOneRegister
  rintro s i a v h (⟨rfl, ha⟩ | ⟨p, u, rfl, hp, rfl, rfl⟩ | ⟨p, g, rfl, hp, hg, rfl, rfl⟩ |
    ⟨p, col, rfl, hp, hcol, rfl, rfl⟩)
  · exact exec_stores_one h ha (plan_wrreg ha v s)
  · exact exec_stores_one h (by omega) (plan_setbyte hp u s)
  · exact exec_stores_one h (by omega) (plan_setdigit hp hg s)
  · exact exec_stores_one h (by omega) (plan_setled hp hcol s)

/-! The read frame (41_command_protocol.md R135, R136). -/

/-- The mask is its four bytes side by side, the first least significant (20_memory.md R57). -/
theorem maskReceived_eq_append (s : State) :
    s.maskReceived = s.byteReceived 3 ++ s.byteReceived 2 ++ s.byteReceived 1 ++ s.byteReceived 0 := by
  unfold State.maskReceived
  generalize s.byteReceived 0 = b0, s.byteReceived 1 = b1, s.byteReceived 2 = b2, s.byteReceived 3 = b3
  refine BitVec.eq_of_getLsbD_eq fun n hn => ?_
  simp only [BitVec.getLsbD_or, BitVec.getLsbD_shiftLeft, BitVec.getLsbD_append, BitVec.getLsbD_setWidth, Nat.sub_sub]
  have high : ∀ (b : Byte) (m : Nat), 8 ≤ m → b.getLsbD m = false := fun b m hm => BitVec.getLsbD_of_ge b m hm
  have hlt : ∀ j, n - j < 32 := fun j => by omega
  by_cases h1 : n < 8
  · simp [h1, hn, hlt, show n < 16 by omega, show n < 24 by omega]
  · by_cases h2 : n < 16
    · simp [h1, h2, hn, hlt, high b0 n (by omega), show n < 24 by omega, show n - 8 < 8 by omega]
    · by_cases h3 : n < 24
      · simp [h1, h2, h3, hn, hlt, high b0 n (by omega), high b1 (n - 8) (by omega), show ¬ n - 8 < 8 by omega,
          show n - 16 < 8 by omega]
      · simp [h1, h2, h3, hn, hlt, high b0 n (by omega), high b1 (n - 8) (by omega), high b2 (n - 16) (by omega),
          show ¬ n - 8 < 8 by omega, show ¬ n - 16 < 8 by omega]

/-- Bit `n` of the mask is the `n`-th sample. -/
theorem maskReceived_bit (s : State) {n : Nat} (hn : n < 32) : s.maskReceived.getLsbD n = s.answer n := by
  have hbit : ∀ j i, i < 8 → (s.byteReceived j).getLsbD i = s.answer (8 * j + i) := byteReceived_bit s
  rw [maskReceived_eq_append]
  simp only [BitVec.getLsbD_append]
  split
  · next h => rw [hbit 0 n (by omega)]; simp
  · split
    · next h => rw [hbit 1 _ (by omega)]; congr 1; omega
    · split
      · next h => rw [hbit 2 _ (by omega)]; congr 1; omega
      · next h => rw [hbit 3 _ (by omega)]; congr 1; omega

theorem readKeysEvents_length (c : Params) {v0 v1 v2 v3 : List Bool} (h0 : v0.length = 8) (h1 : v1.length = 8)
    (h2 : v2.length = 8) (h3 : v3.length = 8) : (readKeysEvents c v0 v1 v2 v3).length = 170 := by
  simp only [readKeysEvents, List.length_append, sendEvents_length, recvEvents_length _ h0, recvEvents_length _ h1,
    recvEvents_length _ h2, recvEvents_length _ h3, List.length_cons, List.length_nil]

/-- The read frame as an operation: its events, the lines, the result, and the 32 samples that it takes. -/
theorem readKeys_complete {s t : State} (ht : t = (s.runMicros (readKeysMicros s.cfg)).complete .returnKeys) :
    t.trace = s.trace ++ readKeysEvents s.cfg (s.answers 0) (s.answers 1) (s.answers 2) (s.answers 3) ∧
      t.gpio = { s.gpio with dir := { s.gpio.dir with dio := true }, out := ⟨true, true, false⟩ } ∧
      t.result = some (.mask s.maskReceived) ∧ s.onlyBus t ∧ t.env = s.env.drop 32 ∧ t.draws = s.draws + 32 := by
  rw [(readKeysMicros_run s).1] at ht
  subst ht
  exact ⟨by simp [State.trace], rfl, rfl, ⟨rfl, rfl, rfl, rfl, rfl, rfl⟩, rfl, rfl⟩

/-- What the read frame does to the far end of a ready bus (20_memory.md R68). -/
theorem readKeys_ready {s t : State} (h : s.ready)
    (ht : t = (s.runMicros (readKeysMicros s.cfg)).complete .returnKeys) :
    s.sameMemory t ∧ t.far.ctl = s.far.ctl ∧ t.control = s.control ∧ t.ready ∧
      t.keysHold ⟨s.byteReceived 0, s.byteReceived 1, s.byteReceived 2, s.byteReceived 3⟩ := by
  have hfar := readKeysMicros_far s h
  rw [← State_complete_far .returnKeys, ← ht] at hfar
  obtain ⟨-, hgpio, -, ⟨hcfg, -, hseq, -⟩, -⟩ := readKeys_complete ht
  obtain ⟨⟨-, hdir, -⟩, hlegal, hst, -⟩ := h
  have hst' : t.far.status = .following := by rw [hfar]; exact hst
  refine ⟨sameMemoryBut_of_read (fun _ => hst') fun a _ => by rw [hfar], by rw [hfar], ?_,
    ⟨⟨hseq, ?_⟩, by rw [hcfg]; exact hlegal, hst', by rw [hfar]⟩, keysHold_of_keys (by rw [hfar])⟩
  · rw [State_control_of_following hst, State_control_of_following hst', hfar]
  · rw [hgpio]
    exact ⟨by rw [hdir], rfl, rfl⟩

/-- Settles O25, from the run of the read frame and what the far end receives. -/
theorem getbuttonsReadsMask : Obligations.GetbuttonsReadsMask := by
  unfold Obligations.GetbuttonsReadsMask
  intro s hs
  obtain ⟨htrace, hgpio, hresult, hbus, henv, hdraws⟩ := readKeys_complete (s := s) rfl
  refine ⟨_, s.maskReceived, exec_of_plan rfl hs, htrace, readKeysEvents_length _ (answers_length s 0)
    (answers_length s 1) (answers_length s 2) (answers_length s 3), hresult, fun n hn => maskReceived_bit s hn, hgpio,
    hbus, henv, hdraws, fun hready => ?_⟩
  obtain ⟨hmemory, hctl, hcontrol, hready', hkeys⟩ := readKeys_ready hready rfl
  exact ⟨hmemory, hctl, hcontrol, hready', _, hkeys, maskReceived_eq_append s⟩

theorem maskReceived_congr {s s' : State} (henv : s.env = s'.env) (hdraws : s.draws = s'.draws) :
    s.maskReceived = s'.maskReceived := by
  have hanswer : s.answer = s'.answer := by
    funext j
    rw [State.answer, henv, hdraws, State.answer]
  simp only [State.maskReceived, State.byteReceived, State.answers, hanswer]

/-- Settles O26: the mask is a function of the coming samples. -/
theorem buttonMaskIndependentOfWrites : Obligations.ButtonMaskIndependentOfWrites := by
  unfold Obligations.ButtonMaskIndependentOfWrites
  intro s s' t t' henv hdraws h h'
  obtain ⟨-, -, hresult, -⟩ := readKeys_complete (eq_complete_of_exec rfl h)
  obtain ⟨-, -, hresult', -⟩ := readKeys_complete (eq_complete_of_exec rfl h')
  rw [hresult, hresult', maskReceived_congr henv hdraws]

end Sys2Proof.Machine

/-! INIT (41_command_protocol.md R137, R138), and what of the far end is known before it (70_reset_and_hazards.md R211). -/

namespace Sys2Proof.Machine

/-! Frames one after another. -/

/-- Eight register writes, one for each position. -/
theorem positionWrites_writes {f : Nat → Nat} (hf : ∀ p ∈ positions, f p ≤ 15) (g : Nat → Byte) {s : State} {c : Params}
    (hc : s.cfg = c) :
    s.writes ((List.range 8).flatMap fun p => wrregEvents c (f p) (g p)) ⟨true, true, (g 7).getLsbD 7⟩
      (s.runMicros (positions.flatMap fun p => wrregMicros c (f p) (g p))) := by
  subst hc
  obtain ⟨o, w, hrun, -, ho⟩ := registerWrites_run f g positions hf s
  obtain rfl := ho (by decide)
  exact ⟨w, _, hrun⟩

/-- Eight register writes of zero (42_display_state.md R157, R158). -/
theorem zeroWrites_writes {f : Nat → Nat} (hf : ∀ p ∈ positions, f p ≤ 15) {s : State} {c : Params} (hc : s.cfg = c) :
    s.writes (clearEvents c f) ⟨true, true, false⟩ (s.runMicros (positions.flatMap fun p => wrregMicros c (f p) 0)) :=
  positionWrites_writes hf (fun _ => 0) hc

theorem mem_positions {p : Nat} : p ∈ positions ↔ p ≤ 7 := by
  simp only [positions, List.mem_cons, List.not_mem_nil, or_false]
  omega

theorem digitRegister_le (p : Nat) (hp : p ∈ positions) : digitRegister p ≤ 15 := by
  have := mem_positions.1 hp
  unfold digitRegister
  omega

theorem ledRegister_le (p : Nat) (hp : p ∈ positions) : ledRegister p ≤ 15 := by
  have := mem_positions.1 hp
  unfold ledRegister
  omega

/-! Registers after writes one after another. -/

theorem read_writes_other {α : Type} (f : α → Nat) (g : α → Byte) {ps : List α} {a : Nat} (h : ∀ p ∈ ps, a ≠ f p)
    (m : List Host.Cell) : Memory.read (ps.foldl (fun m p => Memory.write m (f p) (g p)) m) a = Memory.read m a := by
  induction ps generalizing m with
  | nil => rfl
  | cons p ps ih =>
    rw [List.foldl_cons, ih (fun q hq => h q (by simp [hq])), memory_read_write_other _ _ _ _ (h p (by simp))]

theorem read_writes_mem {f : Nat → Nat} (hf : Function.Injective f) (g : Nat → Byte) {ps : List Nat} {p : Nat}
    (hp : p ∈ ps) (m : List Host.Cell) :
    Memory.read (ps.foldl (fun m p => Memory.write m (f p) (g p)) m) (f p) = some (g p) := by
  induction ps generalizing m with
  | nil => cases hp
  | cons q ps ih =>
    rw [List.foldl_cons]
    by_cases hmem : p ∈ ps
    · exact ih hmem _
    · obtain rfl : p = q := (List.mem_cons.1 hp).resolve_right hmem
      rw [read_writes_other f g (fun r hr hpr => hmem (by rw [hf hpr]; exact hr)), memory_read_write_same]

theorem digitRegister_injective : Function.Injective digitRegister := fun p q h => by
  unfold digitRegister at h
  omega

theorem ledRegister_injective : Function.Injective ledRegister := fun p q h => by
  unfold ledRegister at h
  omega

theorem digitRegister_ne_ledRegister (p q : Nat) : digitRegister p ≠ ledRegister q := by
  unfold digitRegister ledRegister
  omega

/-- What eight register writes, one for each position, store on a ready bus. -/
theorem positionWrites_stores {f : Nat → Nat} (hf : ∀ p ∈ positions, f p ≤ 15) (hinj : Function.Injective f)
    (g : Nat → Byte) {s u : State} {c : Params} (h : s.ready) (hc : s.cfg = c)
    (hu : u = s.runMicros (positions.flatMap fun p => wrregMicros c (f p) (g p))) :
    u.ready ∧ (∀ p, p ≤ 7 → Memory.read u.far.mem (f p) = some (g p)) ∧
      (∀ a, (∀ p, p ≤ 7 → a ≠ f p) → Memory.read u.far.mem a = Memory.read s.far.mem a) ∧ s.sameControl u := by
  subst hc
  obtain ⟨hready, hmem, hcontrol⟩ := registerWrites_far f g positions hf s h
  rw [← hu] at hready hmem hcontrol
  exact ⟨hready, fun p hp => by rw [hmem]; exact read_writes_mem hinj g (mem_positions.2 hp) _,
    fun a ha => by rw [hmem]; exact read_writes_other f g (fun p hp => ha p (mem_positions.1 hp)) _, hcontrol⟩

/-! INIT. -/

theorem clearEvents_length (c : Params) (register : Nat → Nat) : (clearEvents c register).length = 608 := by
  rw [clearEvents, List.length_flatMap]
  simp [wrregEvents_length]

theorem initEvents_length (c : Params) : (initEvents c).length = 1274 := by
  simp only [initEvents, List.length_append, commandEvents_length, clearEvents_length, pinEvents, List.length_cons,
    List.length_nil]

/-- The run of INIT: the pin configuration, and what follows it on the lines. -/
theorem initMicros_writes (s : State) : ∃ es, pinEvents ++ es = initEvents s.cfg ∧
    (s.runMicros pinMicros).writes es ⟨true, true, false⟩ (s.runMicros (initMicros s.cfg)) := by
  have hcfg : (s.runMicros pinMicros).cfg = s.cfg := (runMicros_frame pinMicros s).1
  have h1 := commandMicros_writes s.cfg.cmdDataAuto (s.runMicros pinMicros)
  have h2 := writes_trans h1 (commandMicros_writes (displayControlByte s.cfg s.cfg.brightness) _)
  have h3 := writes_trans h2 (zeroWrites_writes digitRegister_le ((writes_cfg h2).trans hcfg))
  have h4 := writes_trans h3 (zeroWrites_writes ledRegister_le ((writes_cfg h3).trans hcfg))
  refine ⟨_, ?_, by rw [initMicros]; simp only [runMicros_append]; exact h4⟩
  simp only [initEvents, displayControlByte, List.append_assoc]
  rfl

/-- Settles O27: the pin configuration from any GPIO bits, then frames. -/
theorem initConfiguresBlock : Obligations.InitConfiguresBlock := by
  unfold Obligations.InitConfiguresBlock
  intro s hs
  obtain ⟨es, hes, hwrites⟩ := initMicros_writes s
  obtain ⟨htrace, hgpio, hresult, ⟨hcfg, hdots, -, hrequests, hrestDir, hrestOut⟩, hsample⟩ := complete_of_writes hwrites
  rw [pinMicros_run] at htrace hgpio hcfg hdots hrequests hrestDir hrestOut hsample
  refine ⟨_, exec_of_plan rfl hs, ?_, initEvents_length s.cfg, by rw [hgpio], by rw [hgpio], hresult,
    ⟨hcfg, hdots, rfl, hrequests, hrestDir, hrestOut⟩, hsample⟩
  rw [htrace, ← hes]
  simp [State.trace]

/-- With the pin configuration the bus is ready, a far end that was followed having had no frame open. -/
theorem pinMicros_ready {s : State} (hs : s.seq = .idle) (hc : s.cfg.legal)
    (hfar : s.far.status = .unspecified ∨ (s.far.status = .following ∧ s.far.frame = none)) :
    (s.runMicros pinMicros).ready := by
  obtain ⟨hcfg, -, hseq, -⟩ := runMicros_frame pinMicros s
  refine ⟨⟨hseq.trans hs, pinMicros_idle s⟩, by rw [hcfg]; exact hc, ?_, ?_⟩ <;> rw [pinMicros_far s hfar]
  · rcases hfar with h | ⟨h, -⟩
    · simp [FarEnd.follow, h]
    · simp [FarEnd.follow, h]
  · rcases hfar with h | ⟨h, h'⟩
    · simp [FarEnd.follow, h, FarEnd.reset]
    · simp [FarEnd.follow, h, h']

theorem autoCommand_ready {s : State} {c : Params} (h : s.ready) (hc : s.cfg = c) :
    (s.runMicros (commandMicros c.cmdDataAuto)).ready := by
  subst hc
  exact commandMicros_ready h (by rw [receive_auto]; exact ready_following h)

theorem displayCommand_ready {s : State} {c : Params} (h : s.ready) (hc : s.cfg = c) (l : BitVec 3) :
    (s.runMicros (commandMicros (displayControlByte c l))).ready ∧
      (s.runMicros (commandMicros (displayControlByte c l))).far.ctl = some l := by
  subst hc
  have hreceive := receive_display s.cfg (ready_legal h) l s.far
  refine ⟨commandMicros_ready h (by rw [hreceive]; exact ready_following h), ?_⟩
  rw [commandMicros_far_of_ready _ h, hreceive, FarEnd.displayOn]

/-- Settles O28: on the bus that the pin configuration makes ready, the two commands and the sixteen writes. -/
theorem initClearsFarEnd : Obligations.InitClearsFarEnd := by
  unfold Obligations.InitClearsFarEnd
  intro s hs hc hfar
  have r0 := pinMicros_ready hs hc hfar
  have c0 : (s.runMicros pinMicros).cfg = s.cfg := (runMicros_frame pinMicros s).1
  have r1 := autoCommand_ready r0 c0
  have c1 := (writes_cfg (commandMicros_writes s.cfg.cmdDataAuto _)).trans c0
  obtain ⟨r2, hctl⟩ := displayCommand_ready r1 c1 s.cfg.brightness
  have c2 := (writes_cfg (commandMicros_writes (displayControlByte s.cfg s.cfg.brightness) _)).trans c1
  obtain ⟨r3, hdigits, -, ctl3, -⟩ := positionWrites_stores digitRegister_le digitRegister_injective (fun _ => 0) r2 c2 rfl
  have c3 := (writes_cfg (zeroWrites_writes digitRegister_le c2)).trans c2
  obtain ⟨r4, hleds, hothers, ctl4, -⟩ := positionWrites_stores ledRegister_le ledRegister_injective (fun _ => 0) r3 c3 rfl
  have hexec : exec .init s = .next ((s.runMicros (initMicros s.cfg)).complete .nothing) := exec_of_plan rfl hs
  rw [initMicros, clearMicros, clearledsMicros] at hexec
  simp only [runMicros_append] at hexec
  refine ⟨_, hexec, fun a ha => registerHolds_of_read ?registers (by omega), controlHolds_of_ctl ?control,
    complete_ready r4 _⟩ <;> rw [State_complete_far]
  case registers =>
    obtain ⟨p, hp, rfl | rfl⟩ := address_cases (a := a) (by omega)
    · exact (hothers _ fun q _ => digitRegister_ne_ledRegister p q).trans (hdigits p hp)
    · exact hleds p hp
  case control => exact ctl4.trans (ctl3.trans hctl)

/-! Before the first INIT (70_reset_and_hazards.md R211). -/

/-- The micro-operations are none at which the reference model begins to follow the bus. -/
def noFollow (ms : List Micro) : Prop := ∀ m ∈ ms, Transfer.follow ∉ m.pre

theorem noFollow_append {ms ns : List Micro} (hms : noFollow ms) (hns : noFollow ns) : noFollow (ms ++ ns) :=
  fun m hm => (List.mem_append.1 hm).elim (hms m) (hns m)

theorem noFollow_withPre {ts : List Transfer} {ms : List Micro} (hts : .follow ∉ ts) (hms : noFollow ms) :
    noFollow (withPre ts ms) := by
  cases ms with
  | nil => exact hms
  | cons m ms =>
    intro n hn
    rcases List.mem_cons.1 hn with rfl | hn
    · simp [hts, hms m (by simp)]
    · exact hms n (by simp [hn])

theorem noFollow_send (b : Byte) : noFollow (sendMicros b) :=
  noFollow_withPre (by simp) (by unfold noFollow; decide)

theorem noFollow_recv : noFollow recvMicros := by unfold noFollow; decide

theorem noFollow_fopen : noFollow fopenMicros := by unfold noFollow; decide

theorem noFollow_fclose : noFollow fcloseMicros := by unfold noFollow; decide

theorem noFollow_readKeys (c : Params) : noFollow (readKeysMicros c) := by
  have key : ∀ j, noFollow (keyByteMicros j) := fun j => noFollow_withPre (by simp) noFollow_recv
  have next : ∀ {ms}, noFollow ms → noFollow (withPre [.mergeKeys] ms) := fun h => noFollow_withPre (by decide) h
  exact noFollow_append (noFollow_append (noFollow_append (noFollow_append (noFollow_append (noFollow_append
    (noFollow_withPre (by decide) noFollow_fopen) (noFollow_send _)) (key 0)) (next (key 1))) (next (key 2)))
    (next (key 3))) (next noFollow_fclose)

/-- Only INIT makes the reference model follow the bus. -/
theorem plan_noFollow {i : Instr} (hi : i ≠ .init) (s : State) : noFollow (plan i s).micros :=
  plan_induction (by unfold noFollow; decide) (fun _ _ => noFollow_append) noFollow_fopen noFollow_fclose noFollow_send
    (fun _ => noFollow_recv) (fun h => absurd h hi) (fun _ => noFollow_readKeys _)

theorem transfers_run_far {ts : List Transfer} (hts : .follow ∉ ts) (s : State) :
    (ts.foldl (fun s t => t.run s) s).far = s.far := by
  induction ts generalizing s with
  | nil => rfl
  | cons t ts ih =>
    simp only [List.mem_cons, not_or] at hts
    rw [List.foldl_cons, ih hts.2]
    cases t with
    | follow => exact absurd rfl hts.1
    | _ => rfl

theorem micro_run_far_unspecified {m : Micro} (hm : .follow ∉ m.pre) {s : State} (hs : s.far.status = .unspecified) :
    (m.run s).far = s.far := by
  have hpre := transfers_run_far hm s
  unfold Micro.run
  generalize List.foldl _ s m.pre = u at hpre
  have hemit : ∀ e, u.far.observe u.cfg u.gpio e = s.far := fun e => by
    rw [observe_not_following _ _ _ (by rw [hpre, hs]; decide), hpre]
  cases m.act <;> exact hemit _

/-- Settles O29: no event before the first INIT is seen by the far end, and only INIT changes that. -/
theorem farEndUnspecifiedBeforeInit : Obligations.FarEndUnspecifiedBeforeInit := by
  unfold Obligations.FarEndUnspecifiedBeforeInit
  intro i s t hs hi h
  obtain ⟨-, -, rfl⟩ := exec_next_iff.1 h
  exact runMicros_preserves (P := fun u => u.far = s.far)
    (fun m hm u hu => (micro_run_far_unspecified (plan_noFollow hi s m hm) (by rw [hu, hs])).trans hu) rfl

end Sys2Proof.Machine

/-! Display State (42_display_state.md): SETDIGIT, CLEAR, CLEARLEDS, SETLEDS, SETLED. -/

namespace Sys2Proof.Machine

theorem glyph_fin (c : Params) (g : Fin 16) : glyph c g = c.font[g] := by
  simp [glyph]

/-- Settles O34: with the glyph index in range SETDIGIT has SETBYTE's plan. -/
theorem setdigitWritesGlyph : Obligations.SetdigitWritesGlyph := by
  unfold Obligations.SetdigitWritesGlyph
  intro p s hs
  refine ⟨fun hp g => ?_, fun g hp => exec_refused hs (planSetdigit_stop_position _ _ g hp),
    fun g hp hg => exec_refused hs (planSetdigit_stop_glyph _ _ hp hg), fun g => rfl⟩
  have hplan := plan_setdigit hp (Nat.le_of_lt_succ g.isLt) s
  rw [glyph_fin] at hplan
  obtain ⟨htrace, hgpio, hresult, hbus, hsample⟩ :=
    wrregMicros_complete (a := 2 * p) (digitByte s.dots p s.cfg.font[g]) (by omega) rfl
  exact ⟨_, _, exec_of_plan hplan hs, exec_of_plan (plan_setbyte hp _ s) hs, rfl, htrace, wrregEvents_length .., hgpio,
    hresult, hbus, hsample⟩

/-- Settles O35: SETDOTS leaves the bus ready and everything but `DOTS` as it was. -/
theorem setdotsThenSetdigit : Obligations.SetdotsThenSetdigit := by
  unfold Obligations.SetdotsThenSetdigit
  intro m p g s t h hp ht
  obtain rfl : t = s.complete (.writeDots m) := eq_complete_of_exec rfl ht
  have hplan := plan_setdigit hp (Nat.le_of_lt_succ g.isLt) (s.complete (.writeDots m))
  rw [glyph_fin] at hplan
  obtain ⟨u, hu, hholds, hothers, -⟩ := exec_stores_one (complete_ready h _) (by omega) hplan
  exact ⟨u, _, hu, hholds, rfl, hothers⟩

/-- Settles O36: eight register writes of zero. -/
theorem clearsSendZeroWrites : Obligations.ClearsSendZeroWrites := by
  unfold Obligations.ClearsSendZeroWrites
  intro s hs
  exact ⟨⟨_, exec_of_plan rfl hs, complete_of_writes (zeroWrites_writes digitRegister_le rfl)⟩,
    ⟨_, exec_of_plan rfl hs, complete_of_writes (zeroWrites_writes ledRegister_le rfl)⟩⟩

/-- What an operation leaves on a ready bus whose run stores `g p` at `f p` for each position and nothing else. -/
theorem complete_of_stores {f : Nat → Nat} {g : Nat → Byte} (hf : ∀ p, p ∈ positions → f p ≤ 15) {s u : State}
    (hready : u.ready) (hstored : ∀ p, p ≤ 7 → Memory.read u.far.mem (f p) = some (g p))
    (hothers : ∀ a, (∀ p, p ≤ 7 → a ≠ f p) → Memory.read u.far.mem a = Memory.read s.far.mem a)
    (hcontrol : s.sameControl u) (e : Finish) :
    (∀ p, p ≤ 7 → (u.complete e).registerHolds (f p) (g p)) ∧
      s.sameMemoryBut (fun a => ∃ p, p ≤ 7 ∧ a = f p) (u.complete e) ∧ s.sameControl (u.complete e) ∧
      (u.complete e).ready := by
  have hready' := complete_ready hready e
  refine ⟨fun p hp => registerHolds_of_read ?_ (hf p (mem_positions.2 hp)),
    sameMemoryBut_of_read (fun _ => ready_following hready') fun a ha => ?_,
    sameControl_of_eq (fun _ => ready_following hready') hcontrol.1 hcontrol.2.1, hready'⟩ <;> rw [State_complete_far]
  · exact hstored p hp
  · exact hothers a fun p hp hap => ha ⟨p, hp, hap⟩

/-- Settles O37: the eight writes are to the addresses of one half. -/
theorem clearsStoreZeroInTheirHalf : Obligations.ClearsStoreZeroInTheirHalf := by
  unfold Obligations.ClearsStoreZeroInTheirHalf
  intro s h
  obtain ⟨hready, hstored, hothers, hcontrol⟩ :=
    positionWrites_stores digitRegister_le digitRegister_injective (fun _ => 0) h rfl rfl
  obtain ⟨hready', hstored', hothers', hcontrol'⟩ :=
    positionWrites_stores ledRegister_le ledRegister_injective (fun _ => 0) h rfl rfl
  have hclear : exec .clear s = .next ((s.runMicros (clearMicros s.cfg)).complete .nothing) :=
    exec_of_plan rfl (ready_seq h)
  have hclearleds : exec .clearleds s = .next ((s.runMicros (clearledsMicros s.cfg)).complete .nothing) :=
    exec_of_plan rfl (ready_seq h)
  rw [clearMicros] at hclear
  rw [clearledsMicros] at hclearleds
  exact ⟨⟨_, hclear, complete_of_stores digitRegister_le hready hstored hothers hcontrol _⟩,
    ⟨_, hclearleds, complete_of_stores ledRegister_le hready' hstored' hothers' hcontrol' _⟩⟩

/-- Settles O38: eight register writes, of the byte of each position's two bits. -/
theorem setledsWritesAllLeds : Obligations.SetledsWritesAllLeds := by
  unfold Obligations.SetledsWritesAllLeds
  intro g r s hs
  obtain ⟨htrace, hgpio, hresult, hbus, hsample⟩ := complete_of_writes
    (positionWrites_writes ledRegister_le (fun p => ledByte s.cfg (g.getLsbD p) (r.getLsbD p)) (s := s) rfl)
  have hexec : exec (.setleds g r) s = .next ((s.runMicros (setledsMicros s.cfg g r)).complete .nothing) :=
    exec_of_plan rfl hs
  rw [setledsMicros] at hexec
  refine ⟨_, fun p => ledByte s.cfg (g.getLsbD p) (r.getLsbD p), hexec, fun p => rfl, htrace, hgpio, hresult, hbus,
    hsample, fun h => ?_⟩
  obtain ⟨hready, hstored, hothers, hcontrol⟩ := positionWrites_stores ledRegister_le ledRegister_injective
    (fun p => ledByte s.cfg (g.getLsbD p) (r.getLsbD p)) h rfl rfl
  exact complete_of_stores ledRegister_le hready hstored hothers hcontrol _

/-- Settles O39: one register write of the byte of the colour. -/
theorem setledWritesColour : Obligations.SetledWritesColour := by
  unfold Obligations.SetledWritesColour
  intro p col s hs hp hcol
  obtain ⟨htrace, hgpio, hresult, hbus, hsample⟩ := wrregMicros_complete (a := 1 + 2 * p)
    (ledByte s.cfg (colourGreen col) (colourRed col)) (by omega) rfl
  refine ⟨_, _, exec_of_plan (plan_setled hp hcol s) hs, htrace, fun h => ?_, fun h => ?_, fun h => ?_, fun h => ?_, hgpio,
    hresult, hbus, hsample⟩ <;> subst h <;> simp [ledByte, colourGreen, colourRed]

end Sys2Proof.Machine

/-! Number/Text Formatter (43_formatter.md): what the pseudo-operations expand to, and how an expansion runs. -/

namespace Sys2Proof.Machine

/-! An expansion on the bus (30_encoding.md R98). -/

/-- The plan of a pseudo-operation whose writes are in range. -/
theorem plan_pseudo_inRange {i : Instr} {s : State} (hi : isPseudo i = true)
    (hin : (expansionOf s.cfg i).all (·.inRange) = true) : plan i s =
      ⟨(expansionOf s.cfg i).flatMap (fun q => (planRequest s.cfg s.dots q).micros), .nothing, none⟩ := by
  rw [plan_pseudo i s hi, planRequests_ok _ _ _ hin]

/-- A pseudo-operation that completes has all its writes in range. -/
theorem inRange_of_exec {i : Instr} {s t : State} (hi : isPseudo i = true) (h : exec i s = .next t) :
    (expansionOf s.cfg i).all (·.inRange) = true := by
  obtain ⟨-, hstop, -⟩ := exec_next_iff.1 h
  rwa [plan_pseudo i s hi, planRequests_stop_eq_none_iff] at hstop

/-- Settles O40, from the run of an expansion in closed form. -/
theorem formatterRunsItsRequests : Obligations.FormatterRunsItsRequests := by
  unfold Obligations.FormatterRunsItsRequests
  intro i s hs hi hin
  obtain ⟨o, w, hrun, hempty, hlast⟩ := requests_run s.dots (expansionOf s.cfg i) hin s
  obtain ⟨htrace, hgpio, hresult, hbus, hsample⟩ := complete_of_writes ⟨w, _, hrun⟩
  refine ⟨_, exec_of_plan (plan_pseudo_inRange hi hin) hs, htrace, fun h => ⟨?_, ?_⟩, fun q hq => ?_, hresult, hbus,
    hsample⟩
  · rw [hgpio, hempty h]
  · rw [State_complete_far, h]; rfl
  · rw [hgpio, hlast q hq]

/-- Settles O41, from what the requests of an expansion store. -/
theorem formatterStoresItsDigits : Obligations.FormatterStoresItsDigits := by
  unfold Obligations.FormatterStoresItsDigits
  intro i s t h hi ht
  have hin := inRange_of_exec hi ht
  obtain rfl := eq_complete_of_exec (plan_pseudo_inRange hi hin) ht
  obtain ⟨hready, hmem, hctl, hkeys, -⟩ := requests_far s.dots (expansionOf s.cfg i) hin s h
  have hready' := complete_ready hready .nothing
  refine ⟨hmem, sameMemoryBut_of_read (fun _ => ready_following hready') fun a ha => ?_,
    sameControl_of_eq (fun _ => ready_following hready') hctl hkeys, hready'⟩
  rw [State_complete_far, hmem]
  exact read_writes_other _ _ (fun r hr har => ha ⟨r, hr, har⟩) _

/-! The number of decimal digits (43_formatter.md R171). -/

/-- `n` is the least number of at least 1 with `value < 10 ^ n`. -/
def isDigitCount (value n : Nat) : Prop :=
  1 ≤ n ∧ value < 10 ^ n ∧ ∀ m, 1 ≤ m → value < 10 ^ m → n ≤ m

/-- Another digit for each division by ten. -/
theorem isDigitCount_succ {value n : Nat} (hv : 10 ≤ value) (h : isDigitCount (value / 10) n) :
    isDigitCount value (1 + n) := by
  obtain ⟨hn, hlt, hleast⟩ := h
  have hdiv : ∀ m, value < 10 ^ (m + 1) ↔ value / 10 < 10 ^ m := fun m => by
    rw [pow_succ, Nat.div_lt_iff_lt_mul (by decide)]
  refine ⟨by omega, by rw [Nat.add_comm, hdiv]; exact hlt, fun m hm hvm => ?_⟩
  obtain ⟨k, rfl⟩ : ∃ k, m = k + 1 := ⟨m - 1, by omega⟩
  have hk : 1 ≤ k := by
    rcases Nat.eq_zero_or_pos k with rfl | hk
    · rw [zero_add, pow_one] at hvm; omega
    · exact hk
  have := hleast k hk ((hdiv k).1 hvm)
  omega

theorem digitCount_isDigitCount {fuel value : Nat} (h : value ≤ fuel) : isDigitCount value (digitCount fuel value) := by
  have hsmall : ∀ v, v < 10 → isDigitCount v 1 := fun v hv => ⟨le_rfl, by simpa using hv, fun m hm _ => hm⟩
  induction fuel generalizing value with
  | zero => exact hsmall value (by omega)
  | succ fuel ih =>
    rw [digitCount]
    split
    · next hv => exact hsmall value hv
    · next hv => exact isDigitCount_succ (by omega) (ih (by omega))

/-- Settles O42: dividing by ten finds the least number of digits, the value itself bounding the divisions. -/
theorem digitCountIsLeast : Obligations.DigitCountIsLeast := by
  unfold Obligations.DigitCountIsLeast
  exact fun value => digitCount_isDigitCount le_rfl

/-! The loops of the renderers (43_formatter.md R172 to R174). -/

theorem digitLoop_none (base width value : Nat) (first : Bool) : digitLoop base width none value first = ⟨[], width, none⟩ := by
  cases width <;> rfl

theorem padLoop_none (pad : Byte) (width : Nat) : padLoop pad width none = [] := by
  cases width <;> rfl

/-- The pads stand from the cursor down, until the width or the positions end. -/
theorem padLoop_eq (pad : Byte) (width p : Nat) :
    padLoop pad width (some p) = (List.range (min width (p + 1))).map fun j => .byte (p - j) pad := by
  induction width generalizing p with
  | zero => simp [padLoop]
  | succ width ih =>
    cases p with
    | zero => simp [padLoop, dec, padLoop_none]
    | succ q => simp [padLoop, dec, ih, Nat.add_min_add_right, List.range_succ_eq_map]

/-- The digit loop for a value of `n` digits: they stand from the cursor down, until they, the width or the positions end. -/
theorem digitLoop_requests {base : Nat} (width p : Nat) {value n : Nat} {first : Bool}
    (hdigits : ∀ j, j < n → value / base ^ j ≠ 0 ∨ (j = 0 ∧ first = true))
    (hend : value / base ^ n = 0 ∧ (n = 0 → first = false)) :
    (digitLoop base width (some p) value first).requests =
      (List.range (min n (min width (p + 1)))).map fun j => .digit (p - j) (value / base ^ j % base) := by
  induction width generalizing p value n first with
  | zero => simp [digitLoop]
  | succ width ih =>
    cases n with
    | zero =>
      obtain ⟨hvalue, hfirst⟩ := hend
      simp [digitLoop, by simpa using hvalue, hfirst rfl]
    | succ n =>
      have hcond : value ≠ 0 ∨ first = true := by simpa using hdigits 0 (by omega)
      have hdiv : ∀ j, value / base / base ^ j = value / base ^ (j + 1) := fun j => by
        rw [Nat.div_div_eq_div_mul, pow_succ']
      rw [digitLoop, if_pos hcond]
      cases p with
      | zero => simp [dec, digitLoop_none]
      | succ q =>
        have hrest := ih q (value := value / base) (n := n) (first := false)
          (fun j hj => .inl (by simpa [hdiv] using hdigits (j + 1) (by omega))) (by simpa [hdiv] using hend.1)
        simp [dec, hrest, Nat.add_min_add_right, List.range_succ_eq_map, hdiv]

/-- The digits of a number that is not zero, `ndigits10` many of them. -/
theorem ndigits10_digits {value : Nat} (hv : value ≠ 0) {j : Nat} (hj : j < ndigits10 value) : value / 10 ^ j ≠ 0 := by
  obtain ⟨-, -, hleast⟩ := digitCountIsLeast value
  have hle : 10 ^ j ≤ value := by
    rcases Nat.eq_zero_or_pos j with rfl | hpos
    · rw [pow_zero]; omega
    · by_contra hlt
      have := hleast j hpos (by omega)
      omega
  exact (Nat.div_pos hle (by positivity)).ne'

/-- Settles O43: SETNUMBER is the digit loop alone, as wide as there are positions. -/
theorem setnumberPlacesDigits : Obligations.SetnumberPlacesDigits := by
  unfold Obligations.SetnumberPlacesDigits
  intro c value offset al
  refine ⟨fun hv => ?_, fun hv start hstart => ?_⟩
  · simp [expansionOf, expandNumber, digitLoop, hv]
  · have hnumber : numberStart value offset al = start := by rw [hstart]; cases al <;> rfl
    obtain ⟨hone, hlt, -⟩ := digitCountIsLeast value
    rw [expansionOf, expandNumber, hnumber, digitLoop_requests (n := ndigits10 value), min_self]
    · exact fun j hj => .inl (ndigits10_digits hv hj)
    · exact ⟨Nat.div_eq_of_lt hlt, fun h => by omega⟩

/-- The padded field: from the cursor down a digit while digits remain, then the pad. -/
theorem digitLoop_padLoop (base width p value : Nat) (first : Bool) (pad : Byte) :
    (digitLoop base width (some p) value first).requests ++
        padLoop pad (digitLoop base width (some p) value first).width (digitLoop base width (some p) value first).cur =
      (List.range (min width (p + 1))).map fun j =>
        if value / base ^ j ≠ 0 ∨ (j = 0 ∧ first = true) then .digit (p - j) (value / base ^ j % base)
        else .byte (p - j) pad := by
  induction width generalizing p value first with
  | zero => simp [digitLoop, padLoop]
  | succ width ih =>
    have hdiv : ∀ j, value / base / base ^ j = value / base ^ (j + 1) := fun j => by
      rw [Nat.div_div_eq_div_mul, pow_succ']
    rw [digitLoop]
    split
    · next hcond =>
      have hzero : value = 0 → first = true := fun hv => hcond.resolve_left (not_not.2 hv)
      cases p with
      | zero => simpa [dec, digitLoop_none, padLoop_none] using hzero
      | succ q =>
        have hrest := ih q (value / base) false
        simp only [dec, List.cons_append, hrest]
        simpa [Nat.add_min_add_right, List.range_succ_eq_map, hdiv] using hzero
    · next hcond =>
      rw [not_or, not_not] at hcond
      obtain ⟨rfl, hfirst⟩ := hcond
      simp [padLoop_eq, hfirst]

theorem firstDigit_eq_true_iff (c : Params) : firstDigit c = true ↔ c.padZero = .digit := by
  unfold firstDigit
  cases c.padZero <;> simp

theorem expandPadded_eq (c : Params) (base value offset width : Nat) (pad : Byte) :
    expandPadded c base value offset width pad = (List.range (min width (offset + 1))).map fun j =>
      if value / base ^ j ≠ 0 ∨ (j = 0 ∧ c.padZero = .digit) then .digit (offset - j) (value / base ^ j % base)
      else .byte (offset - j) pad := by
  simp only [← firstDigit_eq_true_iff]
  exact digitLoop_padLoop base width offset value (firstDigit c) pad

/-- Settles O44: one field, in either base. -/
theorem paddedFieldIsDigitsThenPads : Obligations.PaddedFieldIsDigitsThenPads := by
  unfold Obligations.PaddedFieldIsDigitsThenPads
  rintro c base value offset width pad (rfl | rfl)
  · exact expandPadded_eq c 10 value offset width pad
  · exact expandPadded_eq c 16 value offset width pad

/-! Text (43_formatter.md R175, R176). -/

/-- A character code that is `n` places after `first`. -/
theorem toNat_ofNat_code {first n : Nat} (h : first + n < 256) : (BitVec.ofNat 8 (first + n)).toNat = first + n := by
  rw [BitVec.toNat_ofNat, Nat.mod_eq_of_lt h]

theorem eq_ofNat_code {ch : Byte} {first : Nat} (h : first ≤ ch.toNat) : ch = BitVec.ofNat 8 (first + (ch.toNat - first)) := by
  rw [Nat.add_sub_cancel' h, BitVec.ofNat_toNat, BitVec.setWidth_eq]

/-- Settles O45, branch by branch of the match. -/
theorem setcharOrderedMatch : Obligations.SetcharOrderedMatch := by
  unfold Obligations.SetcharOrderedMatch
  intro c p ch
  refine ⟨fun hlookup => if_pos hlookup, fun hlookup => ?_⟩
  rw [expansionOf, expandChar, if_neg (not_not.2 hlookup)]
  refine ⟨fun n hn h => ?_, fun n hn h => ?_, fun hletter hdigit => ?_⟩
  · rcases h with rfl | rfl
    · rw [toNat_ofNat_code (by omega), if_pos (by omega), Nat.add_sub_cancel_left]
    · rw [toNat_ofNat_code (by omega), if_neg (by omega), if_pos (by omega), Nat.add_sub_cancel_left]
  · subst h
    rw [toNat_ofNat_code (by omega), if_neg (by omega), if_neg (by omega), if_pos (by omega), Nat.add_sub_cancel_left]
  · rw [if_neg, if_neg, if_neg]
    · exact fun h => hdigit _ (by omega) (eq_ofNat_code h.1)
    · exact fun h => (hletter _ (by omega)).2 (eq_ofNat_code h.1)
    · exact fun h => (hletter _ (by omega)).1 (eq_ofNat_code h.1)

/-- What the end of an operation without a result writes is not read by these micro-operations. -/
def readsNoRest (ms : List Micro) : Prop :=
  ∀ s : State, ((s.complete .nothing).runMicros ms).complete .nothing = (s.runMicros ms).complete .nothing

theorem readsNoRest_append {ms ns : List Micro} (hms : readsNoRest ms) (hns : readsNoRest ns) : readsNoRest (ms ++ ns) := by
  intro s
  rw [runMicros_append, runMicros_append, ← hns, hms, hns]

theorem readsNoRest_send (b : Byte) : readsNoRest (sendMicros b) := by
  intro s
  rw [sendMicros_run, sendMicros_run]
  rfl

/-- A register write loads what it sends (10_state.md R29). -/
theorem planRequests_readsNoRest (c : Params) (dots : Byte) (rs : List DigitRequest) :
    readsNoRest (planRequests c dots rs).micros :=
  have hcommand : ∀ b, readsNoRest (commandMicros b) := fun b =>
    readsNoRest_append (readsNoRest_append (fun _ => rfl) (readsNoRest_send b)) fun _ => rfl
  have hwrite : ∀ b d, readsNoRest (writeFrameMicros b d) := fun b d =>
    readsNoRest_append (readsNoRest_append (readsNoRest_append (fun _ => rfl) (readsNoRest_send b)) (readsNoRest_send d))
      fun _ => rfl
  planRequests_induction (Q := readsNoRest) (fun _ => rfl) (fun _ _ => readsNoRest_append) hcommand hwrite c dots rs

theorem planRequests_eq (c : Params) (dots : Byte) {rs : List DigitRequest} (hrs : rs.all (·.inRange) = true) :
    planRequests c dots rs = ⟨(planRequests c dots rs).micros, .nothing, none⟩ := by
  rw [planRequests_ok c dots rs hrs]

/-- Expansions one after another. -/
theorem planRequests_append (c : Params) (dots : Byte) {rs qs : List DigitRequest} (hrs : rs.all (·.inRange) = true)
    (hqs : qs.all (·.inRange) = true) : planRequests c dots (rs ++ qs) =
      ⟨(planRequests c dots rs).micros ++ (planRequests c dots qs).micros, .nothing, none⟩ := by
  rw [planRequests_ok _ _ _ (by rw [List.all_append, hrs, hqs, Bool.and_self]), planRequests_ok _ _ _ hrs,
    planRequests_ok _ _ _ hqs, List.flatMap_append]

/-- Settles O46: the expansion of a text is those of its characters one after another, and no operation reads what the end of
the one before wrote. -/
theorem setcharsIsSetcharInTurn : Obligations.SetcharsIsSetcharInTurn := by
  unfold Obligations.SetcharsIsSetcharInTurn
  refine ⟨fun c p => rfl, fun p s hs => ?_, fun ch text p s t u ht hu => ?_⟩
  · exact ⟨_, exec_of_plan (ms := []) (f := .nothing) rfl hs, rfl, rfl, rfl, rfl, ⟨rfl, rfl, rfl, rfl, rfl, rfl⟩, rfl, rfl⟩
  · have hs := (exec_next_iff.1 ht).1
    have hch := inRange_of_exec (i := .setchar p ch) rfl ht
    have htext := inRange_of_exec (i := .setchars text (p + 1)) rfl hu
    obtain ⟨hcfg, -⟩ := frameOfEveryOperation _ _ _ ht
    have hdots : t.dots = s.dots := exec_keeps_dots (by simp) ht
    rw [hcfg] at htext
    have hfirst : plan (.setchar p ch) s = _ := planRequests_eq s.cfg s.dots hch
    have hsecond : plan (.setchars text (p + 1)) t = _ := planRequests_eq t.cfg t.dots (by rw [hcfg]; exact htext)
    have hwhole : plan (.setchars (ch :: text) p) s = _ := planRequests_append s.cfg s.dots hch htext
    rw [hcfg, hdots] at hsecond
    rw [exec_of_plan hwhole hs, runMicros_append, eq_complete_of_exec hsecond hu, eq_complete_of_exec hfirst ht]
    exact congrArg _ (planRequests_readsNoRest s.cfg s.dots _ _).symm

theorem wrregMicros_ne_nil (c : Params) (a : Nat) (d : Byte) : wrregMicros c a d ≠ [] := by
  simp [wrregMicros, commandMicros, fopenMicros]

/-- Settles O47: the plan has the events of the writes in range and then stops; performed one by one they end where the next
step is refused. -/
theorem writesBeforeRefusalAreMade : Obligations.WritesBeforeRefusalAreMade := by
  unfold Obligations.WritesBeforeRefusalAreMade
  intro text offset s before after bad hs hexpand hne hbefore hbad
  obtain ⟨r, hr⟩ := planRequest_out s.cfg s.dots bad hbad
  have hplan : plan (.setchars text offset) s =
      ⟨before.flatMap (fun q => (planRequest s.cfg s.dots q).micros), .nothing, some r⟩ := by
    rw [plan_pseudo _ s rfl, hexpand, planRequests, List.map_append, List.map_cons, hr,
      sequence_of_refused _ _ _ ?_ r rfl]
    · simp [Plan.refusal, List.flatMap_map]
    · intro p hp
      obtain ⟨q, hq, rfl⟩ := List.mem_map.1 hp
      rw [(planRequest_in s.cfg s.dots q (List.all_eq_true.1 hbefore q hq)).2]
  obtain ⟨o, w, hrun, -⟩ := requests_run s.dots before hbefore s
  have hmicros : (plan (.setchars text offset) s).micros ≠ [] := by
    obtain ⟨q, qs, rfl⟩ := List.exists_cons_of_ne_nil hne
    rw [hplan, List.flatMap_cons, (planRequest_in s.cfg s.dots q (List.all_eq_true.1 hbefore q List.mem_cons_self)).2]
    exact List.append_ne_nil_of_left_ne_nil (wrregMicros_ne_nil _ _ _) _
  have hreached := runEvents_begin hs hmicros (n := (plan (.setchars text offset) s).micros.length)
    (.inr ⟨le_rfl, by rw [hplan]; exact Option.some_ne_none r⟩)
  rw [List.take_length] at hreached
  refine ⟨r, _, exec_refused hs (by rw [hplan]), hreached, ?_, ?_⟩
  · rw [hplan]
    change (s.runMicros _).trace = _
    rw [hrun]
    simp [State.trace]
  · obtain ⟨hcfg, hdots, -⟩ := runMicros_frame (plan (.setchars text offset) s).micros s
    have hsame : plan (.setchars text offset) { s.runMicros (plan (.setchars text offset) s).micros with
        seq := .busy (.setchars text offset) (plan (.setchars text offset) s).micros.length } =
        plan (.setchars text offset) s := plan_congr _ hcfg hdots
    rw [stepEvent_busy rfl, hsame]
    simp [advance, hplan]

end Sys2Proof.Machine

/-! The commands of the wire and the reference far end (30_encoding.md R86, 20_memory.md R66 to R69). -/

namespace Sys2Proof.Machine

/-! The frames on the lines. -/

theorem writeFrameMicros_writes (b d : Byte) (s : State) :
    s.writes (writeFrameEvents b d) ⟨true, true, d.getLsbD 7⟩ (s.runMicros (writeFrameMicros b d)) :=
  ⟨_, _, writeFrameMicros_run b d s⟩

/-- Settles O48: each command of the wire is its frame. -/
theorem wireCommandsSendTheirFrames : Obligations.WireCommandsSendTheirFrames := by
  unfold Obligations.WireCommandsSendTheirFrames
  intro s a d l hs
  exact ⟨⟨_, exec_of_plan rfl hs, complete_of_writes (commandMicros_writes _ s)⟩,
    ⟨_, exec_of_plan rfl hs, complete_of_writes (commandMicros_writes _ s)⟩,
    ⟨_, exec_of_plan rfl hs, complete_of_writes (commandMicros_writes (displayControlByte s.cfg l) s)⟩,
    ⟨_, exec_of_plan rfl hs, complete_of_writes (writeFrameMicros_writes (setAddressByte s.cfg a) d s)⟩,
    ⟨_, exec_of_plan rfl hs, readKeys_complete rfl⟩⟩

/-! The frames at the far end of a ready bus. -/

/-- A command frame that stores nothing and sets nothing. -/
theorem command_keeps {b : Byte} {f : FarEnd} {s t : State} (h : s.ready) (hreceive : s.far.receive s.cfg [.tx b] = f)
    (hst : f.status = s.far.status) (hmem : f.mem = s.far.mem) (hctl : f.ctl = s.far.ctl) (hkeys : f.keys = s.far.keys)
    (ht : t = (s.runMicros (commandMicros b)).complete .nothing) :
    t.far = f ∧ s.sameMemory t ∧ s.sameControl t ∧ t.ready := by
  have hfar : t.far = f := by rw [ht, State_complete_far, commandMicros_far_of_ready b h, hreceive]
  obtain ⟨hmemory, hcontrol⟩ := same_of_far_keeps (s := s) (t := t) (by rw [hfar, hst]) (by rw [hfar, hmem])
    (by rw [hfar, hctl]) (by rw [hfar, hkeys])
  refine ⟨hfar, hmemory, hcontrol, ?_⟩
  rw [ht]
  exact complete_ready (commandMicros_ready h (by rw [hreceive, hst]; exact ready_following h)) _

theorem writeFrameMicros_far_of_ready (b d : Byte) {s : State} (h : s.ready) :
    (s.runMicros (writeFrameMicros b d)).far = s.far.receive s.cfg [.tx b, .tx d] := by
  obtain ⟨⟨-, hdir, hstb, -⟩, -, hst, -⟩ := h
  rw [writeFrameMicros_far b d s (by rw [hdir]) hstb hst, receive_withFrame]

/-- After a write frame that the far end accepts the bus is ready again. -/
theorem writeFrameMicros_ready {b d : Byte} {s : State} (h : s.ready)
    (hst : (s.far.receive s.cfg [.tx b, .tx d]).status = .following) : (s.runMicros (writeFrameMicros b d)).ready := by
  rw [← writeFrameMicros_far_of_ready b d h] at hst
  exact runMicros_ready h (writeFrameMicros_idle b d h.1.2) hst
    (by rw [writeFrameMicros_far_of_ready b d h, receive_frame])

/-- An announced write frame stores its byte and nothing else (20_memory.md R68). -/
theorem writeFrame_stores {a : BitVec 4} {d : Byte} {s t : State} (h : s.ready) (hannounced : s.far.announced = true)
    (ht : t = (s.runMicros (writeFrameMicros (setAddressByte s.cfg a) d)).complete .nothing) :
    t.registerHolds a.toNat d ∧ s.sameMemoryBut (fun b => b = a.toNat) t ∧ s.sameControl t ∧ t.ready := by
  have hreceive := receive_write s.cfg (ready_legal h) a d s.far hannounced
  have hfar : t.far = s.far.store a d := by
    rw [ht, State_complete_far, writeFrameMicros_far_of_ready _ _ h, hreceive]
  have hready : t.ready := by
    rw [ht]
    exact complete_ready (writeFrameMicros_ready h (by rw [hreceive]; exact ready_following h)) _
  refine ⟨registerHolds_of_read ?_ (by omega), sameMemoryBut_of_read (fun _ => ready_following hready) fun b hb => ?_,
    sameControl_of_eq (fun _ => ready_following hready) (by rw [hfar]; rfl) (by rw [hfar]; rfl), hready⟩ <;>
    rw [hfar, FarEnd.store]
  · exact memory_read_write_same ..
  · exact memory_read_write_other _ _ _ _ hb

/-- A write frame that was not announced is refused (20_memory.md R69). -/
theorem receive_write_unannounced (c : Params) (b d : Byte) {f : FarEnd} (h : f.announced = false) :
    (f.receive c [.tx b, .tx d]).status = .refused := by
  simp [FarEnd.receive, FarEnd.mode, h, FarEnd.refuse]

theorem mode_eq_fixed_iff (f : FarEnd) : f.mode = some .fixed ↔ f.announced = true := by
  cases h : f.announced <;> simp [FarEnd.mode, h]

theorem mode_eq_none_iff (f : FarEnd) : f.mode = none ↔ f.announced = false := by
  cases h : f.announced <;> simp [FarEnd.mode, h]

/-- Settles O49, frame by frame. -/
theorem wireCommandsActOnFarEnd : Obligations.WireCommandsActOnFarEnd := by
  unfold Obligations.WireCommandsActOnFarEnd
  intro s t a d l h
  refine ⟨fun ht => ?auto, fun ht => ?fixed, fun ht => ?display, fun hmode ht => ?store, fun hmode ht => ?unannounced,
    fun ht => ?keys⟩
  case auto =>
    obtain ⟨hfar, hmemory, hcontrol, hready⟩ :=
      command_keeps h (receive_auto s.cfg s.far) rfl rfl rfl rfl (eq_complete_of_exec rfl ht)
    exact ⟨hmemory, hcontrol, by rw [hfar]; rfl, hready⟩
  case fixed =>
    obtain ⟨hfar, hmemory, hcontrol, hready⟩ :=
      command_keeps h (receive_fixed s.cfg (ready_legal h) s.far) rfl rfl rfl rfl (eq_complete_of_exec rfl ht)
    have hmode : t.far.mode = some .fixed := by rw [hfar]; rfl
    exact ⟨hmemory, hcontrol, hmode, State_mode_of_known hmode, hready⟩
  case display => exact displayControl_ready l h (eq_complete_of_exec rfl ht)
  case store => exact writeFrame_stores h ((mode_eq_fixed_iff _).1 hmode) (eq_complete_of_exec rfl ht)
  case unannounced =>
    rw [eq_complete_of_exec rfl ht, State_complete_far, writeFrameMicros_far_of_ready _ _ h]
    exact receive_write_unannounced _ _ _ ((mode_eq_none_iff _).1 hmode)
  case keys => exact readKeys_ready h (eq_complete_of_exec rfl ht)

/-! The bytes that head a frame, from what the wire decoder reads in them. -/

/-- A command byte carries the code of its class (30_encoding.md R86). -/
theorem wireOpOf_some {c : Params} {b : Byte} {o : WireOp} (h : wireOpOf c b = some o) :
    ∃ r ∈ wireTable c, b &&& r.mask = r.code ∧ r.op = o := by
  obtain ⟨r, hr, ho⟩ := Option.map_eq_some_iff.1 h
  exact ⟨r, List.mem_of_find?_eq_some hr, by simpa using List.find?_some hr, ho⟩

theorem byte_split4 (b : Byte) : (b &&& 0xF0) ||| (b.setWidth 4).setWidth 8 = b := by
  revert b; decide

theorem byte_split3 (b : Byte) : (b &&& 0xF8) ||| (b.setWidth 3).setWidth 8 = b := by
  revert b; decide

/-- The byte of a class with the operand that stands in the low bits of `b` (30_encoding.md R86, R89, R90). -/
def classByte (c : Params) (b : Byte) : WireOp → Byte
  | .dataAuto => c.cmdDataAuto
  | .dataReadKeys => c.cmdDataReadKeys
  | .dataFixed => c.cmdDataFixed
  | .addr => setAddressByte c (b.setWidth 4)
  | .displayOn => displayControlByte c (b.setWidth 3)

theorem classByte_of_wireOpOf {c : Params} {b : Byte} {o : WireOp} (h : wireOpOf c b = some o) : classByte c b o = b := by
  obtain ⟨r, hr, hcode, rfl⟩ := wireOpOf_some h
  simp only [wireTable, List.mem_cons, List.not_mem_nil, or_false] at hr
  rcases hr with rfl | rfl | rfl | rfl | rfl
  · exact hcode.symm.trans (and_full b)
  · exact hcode.symm.trans (and_full b)
  · exact hcode.symm.trans (and_full b)
  · exact (congrArg (· ||| _) hcode.symm).trans (byte_split4 b)
  · exact (congrArg (· ||| _) hcode.symm).trans (byte_split3 b)

/-- What decodes from the wire is encoded by the very bytes. -/
theorem encode_of_decodeWire {c : Params} {bytes : List Byte} {i : Instr} (h : decodeWire c bytes = some i) :
    encode c i = .wire bytes := by
  unfold decodeWire at h
  split at h
  · next b =>
    cases hop : wireOpOf c b with
    | none => rw [hop] at h; cases h
    | some o =>
      have hbyte := classByte_of_wireOpOf hop
      rw [hop] at h
      cases o with
      | addr => cases h
      | _ => cases h; exact congrArg (fun b => Request.wire [b]) hbyte
  · next b d =>
    split at h
    · next hop => cases h; exact congrArg (fun b => Request.wire [b, d]) (classByte_of_wireOpOf hop)
    · cases h
  · cases h

theorem byte_of_decodeWire {c : Params} {b b' : Byte} {i : Instr} (h : decodeWire c [b] = some i)
    (hi : encode c i = .wire [b']) : b = b' := by
  have hbytes := (encode_of_decodeWire h).symm.trans hi
  simpa using hbytes

/-- A cursor is known where the frame is headed by the set-address byte of that address. -/
theorem byte_of_cursorOf {c : Params} {b : Byte} {items : List Item} {a : BitVec 4}
    (h : cursorOf c (.tx b :: items) = some a) : b = setAddressByte c a := by
  rw [cursorOf] at h
  split at h
  · next a' d hdecode =>
    cases h
    have hbytes := encode_of_decodeWire hdecode
    simp only [encode, Request.wire.injEq, List.cons.injEq] at hbytes
    exact hbytes.1.symm
  · cases h

/-- What is true of every list of items that the model accepts (20_memory.md R68): it is one of the five, a write frame being
announced. -/
theorem receive_cases (c : Params) (items : List Item) (f : FarEnd) : (f.receive c items).status = .refused ∨
    items = [.tx c.cmdDataAuto] ∨ items = [.tx c.cmdDataFixed] ∨ (∃ l, items = [.tx (displayControlByte c l)]) ∨
    (∃ a d, items = [.tx (setAddressByte c a), .tx d] ∧ f.announced = true) ∨
    ∃ k0 k1 k2 k3, items = [.tx c.cmdDataReadKeys, .rx k0, .rx k1, .rx k2, .rx k3] := by
  unfold FarEnd.receive
  split
  · split
    · next hb => exact .inr (.inl (by rw [byte_of_decodeWire hb rfl]))
    · next hb => exact .inr (.inr (.inl (by rw [byte_of_decodeWire hb rfl])))
    · next l hb => exact .inr (.inr (.inr (.inl ⟨l, by rw [byte_of_decodeWire hb rfl]⟩)))
    · exact .inl rfl
  · split
    · next a hcursor hmode =>
      exact .inr (.inr (.inr (.inr (.inl ⟨a, _, by rw [byte_of_cursorOf hcursor], (mode_eq_fixed_iff f).1 hmode⟩))))
    · exact .inl rfl
  · split
    · next hb => exact .inr (.inr (.inr (.inr (.inr ⟨_, _, _, _, by rw [byte_of_decodeWire hb rfl]⟩))))
    · exact .inl rfl
  · exact .inl rfl

/-- Settles O50: the frame has bits over, or its items are none of those that the model accepts. -/
theorem otherFramesAreRefused : Obligations.OtherFramesAreRefused := by
  unfold Obligations.OtherFramesAreRefused
  rintro c f ⟨items, part⟩ - h
  cases part with
  | cons w ws => rfl
  | nil =>
    obtain ⟨hauto, hfixed, hdisplay, hwrite, hkeys⟩ := h.resolve_left (fun hne => hne rfl)
    rcases receive_cases c items f with hrefused | he | he | ⟨l, he⟩ | ⟨a, d, he, hannounced⟩ | ⟨k0, k1, k2, k3, he⟩
    · exact hrefused
    · exact absurd he hauto
    · exact absurd he hfixed
    · exact absurd he (hdisplay l)
    · rw [hwrite a d he] at hannounced
      cases hannounced
    · exact absurd he (hkeys k0 k1 k2 k3)

/-- Settles O51: between the two edges no bit passes, so the frame that closes is empty. -/
theorem emptyFrameIsRefused : Obligations.EmptyFrameIsRefused := by
  unfold Obligations.EmptyFrameIsRefused
  rintro s ⟨⟨hs, hidle⟩, -, hst, -⟩
  have hopen : ((s.emit (.setOut .stb false)).complete .nothing).far = { s.far with frame := some ⟨[], []⟩ } := by
    rw [State_complete_far, State_emit_far, observe_strobe_low, if_pos ⟨hst, hidle.2.1⟩]
  have hfopen : exec .fopen s = .next ((s.emit (.setOut .stb false)).complete .nothing) :=
    exec_of_plan (ms := fopenMicros) rfl hs
  refine ⟨_, _, hfopen, exec_of_plan rfl rfl, ?_, ?_, rfl, hidle.1, rfl, hidle.2.2⟩
  · rw [State_complete_far, fcloseMicros_run, State_emit_far, hopen, see_close _ _ _ [] (by exact hst) rfl]
    rfl
  · rw [State_complete_trace, fcloseMicros_run, State_emit_trace, State_complete_trace, State_emit_trace]
    simp

end Sys2Proof.Machine
